-- ==== Sys2Proof/Word.lean ====
section
/-!
DEFINITION. The machine's word types: the 128-bit value, the 32-bit instruction word and the register index.

The spec's readings of a 128-bit value v (00_scope.md R7) are Lean's own: `u(v)` is `v.toNat`, `s(v)` is `v.toInt`,
and `v[hi:lo]` is `v.extractLsb' lo (hi - lo + 1)`. `wrap(i)` (R9) is `BitVec.ofInt 128 i`; addition,
subtraction and multiplication of `Word`s wrap modulo 2^128 by themselves.
-/

namespace Sys2Proof

/-- A 128-bit value: a general register, PC, HI, LO, an address or a memory cell (00_scope.md R5, R7). -/
abbrev Word := BitVec 128

/-- A 32-bit instruction or literal word (30_encoding.md R61). -/
abbrev InstrWord := BitVec 32

/-- The index of a general register, 0 to 31 (10_state.md R10, R14). -/
abbrev Reg := Fin 32

end Sys2Proof
end

