-- ==== Sys2Proof/Machine/ArithmeticUnit.lean ====
section
/-!
DEFINITION. The arithmetic unit (40_arithmetic_unit.md R81 to R90): pure functions over 128-bit values.

The comparator's two readings are in Flags.lean. The multiplier's Karatsuba decomposition (R87) and the divider's bit-serial
loop (R89) are written out beside the exact product and quotient that the machine uses; that they agree is stated in the
obligations (log 33).
-/

namespace Sys2Proof.Machine

/-- `wrap(i)` (00_scope.md R9): an integer reduced to a 128-bit value. -/
def wrap (i : Int) : Word := BitVec.ofInt 128 i

/-! ### Adder and sign extenders -/

/-- `add(a, b) = (a + b) mod 2^128`, no overflow signal (R82). -/
def addWords (a b : Word) : Word := a + b

/-- `sub(a, b) = (a - b) mod 2^128`, no overflow signal (R83). -/
def subWords (a b : Word) : Word := a - b

/-- `signExtend16` (R85). -/
def signExtend16 (i : BitVec 16) : Word := i.signExtend 128

/-- `signExtend32` (R85). -/
def signExtend32 (i : BitVec 32) : Word := i.signExtend 128

/-- `zext_32` (00_scope.md R8). -/
def zeroExtend32 (i : BitVec 32) : Word := i.setWidth 128

/-! ### Multiplier -/

/-- The (high, low) 128-bit halves of a 256-bit product (R86). -/
def splitProduct (p : Nat) : Word × Word := (BitVec.ofNat 128 (p / 2 ^ 128), BitVec.ofNat 128 p)

/-- `multiply_u`: the exact unsigned product, as (hi, lo) (R86). -/
def multiplyU (a b : Word) : Word × Word := splitProduct (a.toNat * b.toNat)

/-- `tc256(i) = i mod 2^256` (00_scope.md R9). -/
def tc256 (i : Int) : Nat := (i % 2 ^ 256).toNat

/-- `multiply_s`: the 256-bit two's-complement form of the signed product, as (hi, lo) (R88, D9). -/
def multiplyS (a b : Word) : Word × Word := splitProduct (tc256 (a.toInt * b.toInt))

/-- The Karatsuba recursion `K(x, y, n)` (R87), `depth` bounding how many levels may run: none where it would need more. -/
def karatsuba : (depth : Nat) → (x y n : Nat) → Option Nat
  | 0, _, _, _ => none
  | depth + 1, x, y, n =>
    if x < 2 ^ 64 ∧ y < 2 ^ 64 then some (x * y)
    else
      let h := n / 2
      let x1 := x / 2 ^ h
      let x0 := x % 2 ^ h
      let y1 := y / 2 ^ h
      let y0 := y % 2 ^ h
      match karatsuba depth x1 y1 h, karatsuba depth x0 y0 h, karatsuba depth (x1 + x0) (y1 + y0) h with
      | some z2, some z0, some zm => some (z2 * 2 ^ (2 * h) + (zm - z2 - z0) * 2 ^ h + z0)
      | _, _, _ => none

/-- `multiply_s` from magnitudes (R88): the unsigned product of the magnitudes, negated modulo 2^256 where the signs differ
and neither operand is 0. -/
def signedProductFromMagnitudes (a b : Word) : Nat :=
  let m := a.toInt.natAbs * b.toInt.natAbs
  if a = 0 ∨ b = 0 ∨ (a.toInt < 0 ↔ b.toInt < 0) then m else (2 ^ 256 - m) % 2 ^ 256

/-! ### Divider -/

/-- `divide_u`: (quotient, remainder), or none for the DivideByZero condition (R89). -/
def divideU (a b : Word) : Option (Word × Word) :=
  if b = 0 then none
  else some (BitVec.ofNat 128 (a.toNat / b.toNat), BitVec.ofNat 128 (a.toNat % b.toNat))

/-- `divide_s`: the signed divide that truncates toward zero, computed from magnitudes; none for the DivideByZero
condition (R90, D10). -/
def divideS (a b : Word) : Option (Word × Word) :=
  if b = 0 then none
  else
    let qm : Int := (a.toInt.natAbs / b.toInt.natAbs : Nat)
    let rm : Int := (a.toInt.natAbs % b.toInt.natAbs : Nat)
    let q := if (decide (a.toInt < 0)).xor (decide (b.toInt < 0)) then -qm else qm
    let r := if a.toInt < 0 then -rm else rm
    some (wrap q, wrap r)

/-- The restoring loop of R89 for bits `k - 1` down to 0 of `n`, from partial quotient `q` and partial remainder `r`. -/
def restoringLoop (n d : Nat) : (k : Nat) → (q r : Nat) → Nat × Nat
  | 0, q, r => (q, r)
  | k + 1, q, r =>
    let r' := 2 * r + (n.testBit k).toNat
    if d ≤ r' then restoringLoop n d k (q + 2 ^ k) (r' - d) else restoringLoop n d k q r'

/-- The bit-serial restoring division of R89, from bit 127 down. -/
def restoringDivide (n d : Nat) : Option (Nat × Nat) :=
  if d = 0 then none else some (restoringLoop n d 128 0 0)

end Sys2Proof.Machine
end

