-- ==== Sys2Proof/Config.lean ====
section
/-!
DEFINITION. What an implementation fixes (00_scope.md R5, R6) and the one free value of the spec.

The parameters the spec leaves open are fields of `Config`. A `Config` value stands in the machine's state, never
changed by a step, so that a statement over every state holds for every value of the parameters (log 4). Their
constraints are `Config.wellFormed` in WellFormed.lean.
-/

namespace Sys2Proof

/-- LIS_EXT (00_scope.md R6, D8): how `lis` widens its 32-bit literal to 128 bits. -/
inductive LisExt where
  /-- With zeros. -/
  | zero
  /-- By copying bit 31. -/
  | sign
  deriving DecidableEq, Repr

/-- The `executionMode` tag (10_state.md R26). It changes no instruction's meaning (R27). -/
inductive ExecMode where
  | mips32
  | extended
  deriving DecidableEq, Repr

/-- The parameters that 00_scope.md R6 leaves to the implementation. -/
structure Config where
  /-- MEM_SIZE, the configured memory size in bytes (20_memory.md R36, D3). -/
  memSize : Nat
  /-- MMIO_THRESHOLD, the lowest address of the MMIO range (20_memory.md R44, D4). -/
  mmioThreshold : Nat
  /-- INPUT_PORT, the address of the input port (20_memory.md R47, D4). -/
  inputPort : Nat
  /-- OUTPUT_PORT, the address of the output port (20_memory.md R48, D4). -/
  outputPort : Nat
  /-- LIS_EXT, the widening of the `lis` literal (44_load_store.md R117, D8). -/
  lisExt : LisExt
  /-- EXEC_MODE_INIT, the `executionMode` tag at construction (10_state.md R26, D21). -/
  execModeInit : ExecMode
  deriving DecidableEq, Repr

/-- The test configuration T of 95_test_vectors.md section 0, with LIS_EXT = zero. DESIGN CHOICE (log 4): the spec
gives these parameters no value; `State.reset` needs one machine to be the reset state of. -/
def Config.testT : Config where
  memSize := 0x10000
  mmioThreshold := 0xFFFF0000
  inputPort := 0xFFFF0000
  outputPort := 0xFFFF0010
  lisExt := .zero
  execModeInit := .mips32

/-- InputDraw (20_memory.md R47, D17): the value of the k-th read of the input port. A FREE VALUE (log 5): it has no
body, so a claim about it holds for every value the port may return. -/
opaque Config.inputDraw : Nat → Word

/-- TRACE_CAP (00_scope.md R5): the capacity of the execution trace. -/
def traceCap : Nat := 100

end Sys2Proof
end

