-- ==== Sys2Proof/Syntax.lean ====
section
/-!
DEFINITION. The closed set of 17 instructions (00_scope.md R2; 30_encoding.md R68), one constructor for each row of
spec/opcode_table.json, in the table's order. A constructor carries the fields the instruction uses (30_encoding.md
R67); the fields it ignores are not part of it (R65, log 31).
-/

namespace Sys2Proof

/-- An instruction with its operands. -/
inductive Instr where
  /-- `add rd, rs, rt` (42_integer_alu.md R103). -/
  | add (rd rs rt : Reg)
  /-- `sub rd, rs, rt` (R104). -/
  | sub (rd rs rt : Reg)
  /-- `slt rd, rs, rt`: set on less than, signed (R105). -/
  | slt (rd rs rt : Reg)
  /-- `sltu rd, rs, rt`: set on less than, unsigned (R106). -/
  | sltu (rd rs rt : Reg)
  /-- `mult rs, rt`: multiply, signed (43_multiply_divide.md R107). -/
  | mult (rs rt : Reg)
  /-- `multu rs, rt`: multiply, unsigned (R108). -/
  | multu (rs rt : Reg)
  /-- `div rs, rt`: divide, signed (R109). -/
  | div (rs rt : Reg)
  /-- `divu rs, rt`: divide, unsigned (R110). -/
  | divu (rs rt : Reg)
  /-- `mfhi rd` (R111). -/
  | mfhi (rd : Reg)
  /-- `mflo rd` (R112). -/
  | mflo (rd : Reg)
  /-- `lis rd`: load the literal word that follows (44_load_store.md R117). -/
  | lis (rd : Reg)
  /-- `jr rs` (45_control_transfer.md R121). -/
  | jr (rs : Reg)
  /-- `jalr rs` (R122). -/
  | jalr (rs : Reg)
  /-- `lw rt, imm(rs)` (44_load_store.md R115). -/
  | lw (rt rs : Reg) (imm : BitVec 16)
  /-- `sw rt, imm(rs)` (R116). -/
  | sw (rt rs : Reg) (imm : BitVec 16)
  /-- `beq rs, rt, imm` (45_control_transfer.md R119). -/
  | beq (rs rt : Reg) (imm : BitVec 16)
  /-- `bne rs, rt, imm` (R120). -/
  | bne (rs rt : Reg) (imm : BitVec 16)
  deriving DecidableEq, Repr

end Sys2Proof
end

