-- ==== Sys2Proof/Decode.lean ====
section
/-!
DEFINITION. The instruction decoder (30_encoding.md R61 to R75) and, after it, the encoder written from the same tables.
-/

namespace Sys2Proof

/-- Which of the two dispatch keys a word's decode failure names (30_encoding.md R71, R72). -/
inductive DecodeErrorKind where
  /-- The word's opcode is nonzero and selects no instruction (R72). -/
  | opcode
  /-- The word's opcode is 0 and its function selects no instruction (R71). -/
  | function
  deriving DecidableEq, Repr

/-- DecodeError with the offending 6-bit code (60_exceptions.md R125, R126). -/
structure DecodeError where
  kind : DecodeErrorKind
  code : BitVec 6
  deriving DecidableEq, Repr

/-! ### Field extraction (30_encoding.md R62) -/

/-- opcode = bits[31:26]. -/
def opcodeField (w : InstrWord) : BitVec 6 := w.extractLsb' 26 6

/-- The register a 5-bit field names. -/
def regOfBits (b : BitVec 5) : Reg := b.toFin

/-- rs = bits[25:21]. -/
def rsField (w : InstrWord) : Reg := regOfBits (w.extractLsb' 21 5)

/-- rt = bits[20:16]. -/
def rtField (w : InstrWord) : Reg := regOfBits (w.extractLsb' 16 5)

/-- rd = bits[15:11]. -/
def rdField (w : InstrWord) : Reg := regOfBits (w.extractLsb' 11 5)

/-- shamt = bits[10:6]; no instruction uses it (R65). -/
def shamtField (w : InstrWord) : BitVec 5 := w.extractLsb' 6 5

/-- function = bits[5:0]. -/
def functionField (w : InstrWord) : BitVec 6 := w.extractLsb' 0 6

/-- immediate = bits[15:0]. -/
def immField (w : InstrWord) : BitVec 16 := w.extractLsb' 0 16

/-- jump-address = bits[25:0]; no instruction uses it (R65, R72). -/
def jumpAddressField (w : InstrWord) : BitVec 26 := w.extractLsb' 0 26

/-! ### Dispatch (30_encoding.md R68) -/

/-- The R-type map, under opcode 0 (R69); any other function is a decode failure naming it (R71). -/
def decodeFunction (w : InstrWord) : Except DecodeError Instr :=
  match functionField w with
  | 0x20#6 => .ok (.add (rdField w) (rsField w) (rtField w))
  | 0x22#6 => .ok (.sub (rdField w) (rsField w) (rtField w))
  | 0x18#6 => .ok (.mult (rsField w) (rtField w))
  | 0x19#6 => .ok (.multu (rsField w) (rtField w))
  | 0x1A#6 => .ok (.div (rsField w) (rtField w))
  | 0x1B#6 => .ok (.divu (rsField w) (rtField w))
  | 0x10#6 => .ok (.mfhi (rdField w))
  | 0x12#6 => .ok (.mflo (rdField w))
  | 0x14#6 => .ok (.lis (rdField w))
  | 0x08#6 => .ok (.jr (rsField w))
  | 0x09#6 => .ok (.jalr (rsField w))
  | 0x2A#6 => .ok (.slt (rdField w) (rsField w) (rtField w))
  | 0x2B#6 => .ok (.sltu (rdField w) (rsField w) (rtField w))
  | fn => .error ⟨.function, fn⟩

/-- The I-type map, under a nonzero opcode (R70); any other opcode is a decode failure naming it (R72). -/
def decodeOpcode (w : InstrWord) : Except DecodeError Instr :=
  match opcodeField w with
  | 0x23#6 => .ok (.lw (rtField w) (rsField w) (immField w))
  | 0x2B#6 => .ok (.sw (rtField w) (rsField w) (immField w))
  | 0x04#6 => .ok (.beq (rsField w) (rtField w) (immField w))
  | 0x05#6 => .ok (.bne (rsField w) (rtField w) (immField w))
  | op => .error ⟨.opcode, op⟩

/-- `decode(word)`: one of the 17 instructions or one DecodeError, for every word (R68, R75). -/
def decode (w : InstrWord) : Except DecodeError Instr :=
  if opcodeField w = 0#6 then decodeFunction w else decodeOpcode w

/-- The instruction the decoder reads from the low `nbits` bits of `w`, bit 0 the least significant; an instruction is
one 32-bit word and is kept as such (20_memory.md R50), so no byte order enters. -/
def decodeTableWord (nbits w : Nat) : Option Instr :=
  match decode (BitVec.ofNat 32 (w % 2 ^ nbits)) with
  | .ok i => some i
  | .error _ => none

/-! ### Encoding (30_encoding.md R63, R64, R69, R70) -/

/-- The 5-bit field of a register. -/
def regBits (r : Reg) : BitVec 5 := BitVec.ofFin r

/-- The R-type layout (R63). -/
def encodeR (rs rt rd : Reg) (shamt : BitVec 5) (fn : BitVec 6) : InstrWord :=
  0#6 ++ regBits rs ++ regBits rt ++ regBits rd ++ shamt ++ fn

/-- The I-type layout (R64). -/
def encodeI (op : BitVec 6) (rs rt : Reg) (imm : BitVec 16) : InstrWord :=
  op ++ regBits rs ++ regBits rt ++ imm

/-- The word of an instruction; ignored fields are assembled as 0 (R77). -/
def encode : Instr → InstrWord
  | .add rd rs rt => encodeR rs rt rd 0 0x20
  | .sub rd rs rt => encodeR rs rt rd 0 0x22
  | .slt rd rs rt => encodeR rs rt rd 0 0x2A
  | .sltu rd rs rt => encodeR rs rt rd 0 0x2B
  | .mult rs rt => encodeR rs rt 0 0 0x18
  | .multu rs rt => encodeR rs rt 0 0 0x19
  | .div rs rt => encodeR rs rt 0 0 0x1A
  | .divu rs rt => encodeR rs rt 0 0 0x1B
  | .mfhi rd => encodeR 0 0 rd 0 0x10
  | .mflo rd => encodeR 0 0 rd 0 0x12
  | .lis rd => encodeR 0 0 rd 0 0x14
  | .jr rs => encodeR rs 0 0 0 0x08
  | .jalr rs => encodeR rs 0 0 0 0x09
  | .lw rt rs imm => encodeI 0x23 rs rt imm
  | .sw rt rs imm => encodeI 0x2B rs rt imm
  | .beq rs rt imm => encodeI 0x04 rs rt imm
  | .bne rs rt imm => encodeI 0x05 rs rt imm

/-- The bits of a word that select the instruction or are read by it: all but the ignored fields of R67. -/
def usedBits : Instr → InstrWord
  | .add _ _ _ | .sub _ _ _ | .slt _ _ _ | .sltu _ _ _ => 0xFFFFF83F
  | .mult _ _ | .multu _ _ | .div _ _ | .divu _ _ => 0xFFFF003F
  | .mfhi _ | .mflo _ | .lis _ => 0xFC00F83F
  | .jr _ | .jalr _ => 0xFFE0003F
  | .lw _ _ _ | .sw _ _ _ | .beq _ _ _ | .bne _ _ _ => 0xFFFFFFFF

/-- The mask of the instruction's row of spec/opcode_table.json: the bits that select it. -/
def selectMask : Instr → InstrWord
  | .add _ _ _ | .sub _ _ _ | .slt _ _ _ | .sltu _ _ _ | .mult _ _ | .multu _ _ | .div _ _ | .divu _ _
  | .mfhi _ | .mflo _ | .lis _ | .jr _ | .jalr _ => 0xFC00003F
  | .lw _ _ _ | .sw _ _ _ | .beq _ _ _ | .bne _ _ _ => 0xFC000000

/-- The value of the selecting bits in the instruction's row of spec/opcode_table.json. -/
def selectValue : Instr → InstrWord
  | .add _ _ _ => 0x00000020
  | .sub _ _ _ => 0x00000022
  | .slt _ _ _ => 0x0000002A
  | .sltu _ _ _ => 0x0000002B
  | .mult _ _ => 0x00000018
  | .multu _ _ => 0x00000019
  | .div _ _ => 0x0000001A
  | .divu _ _ => 0x0000001B
  | .mfhi _ => 0x00000010
  | .mflo _ => 0x00000012
  | .lis _ => 0x00000014
  | .jr _ => 0x00000008
  | .jalr _ => 0x00000009
  | .lw _ _ _ => 0x8C000000
  | .sw _ _ _ => 0xAC000000
  | .beq _ _ _ => 0x10000000
  | .bne _ _ _ => 0x14000000

end Sys2Proof
end

