-- ==== Sys2Proof/Machine/State.lean ====
section
/-!
DEFINITION. The state of one core instance (10_state.md, its opening tuple), the reasons a step can stop, and the
reset state.
-/

namespace Sys2Proof.Machine

/-- The five error kinds of the core with the context each carries (60_exceptions.md R125). -/
inductive Error where
  /-- Unrecognised opcode or function code (R126): decode stage, host's direct execute. -/
  | decode (e : DecodeError)
  /-- The address breaks the alignment its access needs, 16 or 4 (R127): fetch, `lw`, `sw`, the `lis` literal read. -/
  | alignment (addr : Word) (align : Nat)
  /-- The address lies below the MMIO threshold and outside the configured memory (R128). -/
  | outOfBounds (addr : Word)
  /-- `div` or `divu` with a zero divisor; carries the divisor's register index (R129). -/
  | divideByZero (rt : Reg)
  /-- A host register access outside 0 to 31 (R130); no instruction raises it. -/
  | invalidRegister (index : Int)
  deriving DecidableEq, Repr

/-- A fault record (kind, info, instrAddr) (10_state.md R25). -/
structure FaultRecord where
  /-- The kind and its info. -/
  error : Error
  /-- The address the failing cycle fetched from. -/
  instrAddr : Word
  deriving DecidableEq, Repr

/-- An entry of the execution trace (10_state.md R29, D20). -/
inductive TraceEntry where
  /-- One completed instruction: its address and its word. -/
  | step (instrAddr : Word) (word : InstrWord)
  /-- The marker a reset records (70_reset_and_hazards.md R147). -/
  | resetEntry
  deriving DecidableEq, Repr

/-- Storage (20_memory.md R37): (address, 128-bit cell) pairs. The canonical form, `Memory.wf`: addresses strictly
rising and no entry equal to what an unlisted address reads as (log 1). -/
abbrev Memory := List (Nat × Word)

/-- What a cell nothing has written reads as: "unset addresses implicitly read as zero" (20_memory.md R38, log 2). -/
def unsetCell : Word := 0

/-- The canonical form of memory: addresses strictly rising, no listed cell equal to an unset one. -/
def Memory.wf (m : Memory) : Bool :=
  decide ((m.map Prod.fst).Pairwise (· < ·)) && m.all fun c => c.2 != unsetCell

/-- The state of one core instance: every component of 10_state.md's tuple, with the parameters of 00_scope.md R6 and
two fields that say so below. -/
structure State where
  /-- The parameters of this instance (00_scope.md R6); nothing changes them (log 4). -/
  config : Config
  /-- x[0..31] (10_state.md R10); read and written through `State.reg` and `State.writeReg` only, where `$0` is
  hard-wired to zero (R11). -/
  regs : Vector Word 32
  /-- PC (R15, R16). -/
  pc : Word
  /-- HI (R19). -/
  hi : Word
  /-- LO (R20). -/
  lo : Word
  /-- Running or Idle (R24). -/
  running : Bool
  /-- The trace-annotation tag (R26). -/
  executionMode : ExecMode
  /-- The instruction counter (R28). -/
  instrCount : Nat
  /-- The execution trace, oldest entry first (R29). -/
  trace : List TraceEntry
  /-- The fault record, if one is set (R25). -/
  fault : Option FaultRecord
  /-- The spec's refusal mark (R31). -/
  refused : Bool
  /-- Storage cells (20_memory.md R37). -/
  mem : Memory
  /-- The addresses of the cells that have been written, strictly rising: what `dump` and the snapshot's sparse map list
  (70_reset_and_hazards.md R154, log 3). No cycle reads it. -/
  written : List Nat
  /-- The values stored at the output port, oldest first (20_memory.md R48). -/
  outLog : List Word
  /-- The MODEL's own counter: how many input-port draws have been taken, the argument of the free value
  `Config.inputDraw` (20_memory.md R47, log 5). -/
  draws : Nat
  deriving DecidableEq, Repr

/-- Why a step is no transition of the machine: the core has no cycle enabled (41_core_cycle.md R91). The errors of
60_exceptions.md are not here: raising one is a next state with `State.fault` set (log 6, log 7). -/
inductive Fault where
  /-- Raised by a cycle, or the host's direct execute, while a fault is recorded: nothing runs until reset or
  construction (10_state.md R25). Safe: the machine does not move there either. -/
  | faultRecorded
  /-- Raised by a cycle, or the host's direct execute, while the refusal mark is set (10_state.md R31). Safe: the
  spec gives no behaviour after a refusal. -/
  | refusalRecorded
  /-- Raised by a cycle while the core is Idle (10_state.md R24, R145). Safe: there is "no program counter advancement
  occurring" while Idle. -/
  | coreIdle
  deriving DecidableEq, Repr

/-- Why an instruction has no meaning. -/
inductive Refusal where
  /-- The instruction of this mnemonic has no meaning in the model. Safe. No arm of `exec` answers it. -/
  | notModelled (mnemonic : String)
  /-- A load at an MMIO address other than the input port (20_memory.md R49). Raised by `lw` and the host's loadWord.
  Safe: the spec names no behaviour (D5). -/
  | mmioLoad (addr : Word)
  /-- A store at an MMIO address other than the output port (20_memory.md R49). Raised by `sw` and the host's storeWord.
  Safe: the spec names no behaviour (D5). -/
  | mmioStore (addr : Word)
  /-- A fetch or a `lis` literal read in the MMIO range (20_memory.md R49, R50). Safe: the spec names no behaviour
  (D5, D6). -/
  | mmioFetch (addr : Word)
  deriving DecidableEq, Repr

/-- A freshly constructed core with parameters `c` (10_state.md R32, 70_reset_and_hazards.md R146). -/
def State.construct (c : Config) : State where
  config := c
  regs := Vector.replicate 32 0
  pc := 0
  hi := 0
  lo := 0
  running := false
  executionMode := c.execModeInit
  instrCount := 0
  trace := []
  fault := none
  refused := false
  mem := []
  written := []
  outLog := []
  draws := 0

/-- The host's `reset` (10_state.md R32, 70_reset_and_hazards.md R147): registers, PC, HI, LO, counter, fault record and
refusal mark cleared, the core Idle, the trace just `[resetEntry]`; memory, `outLog` and `executionMode` unchanged. -/
def State.resetCore (s : State) : State :=
  { s with
    regs := Vector.replicate 32 0
    pc := 0
    hi := 0
    lo := 0
    running := false
    instrCount := 0
    trace := [.resetEntry]
    fault := none
    refused := false }

/-- The machine right after reset: a freshly constructed core to which the host's `reset` was given (log 10), with the
parameters of the test configuration (log 4). -/
def State.reset : State := (State.construct Config.testT).resetCore

end Sys2Proof.Machine
end

