-- ==== Sys2Proof/Machine/Ops.lean ====
section
/-!
DEFINITION. The named operations over memory, registers and control state. Taking an error (60_exceptions.md R131)
is the one operation `State.raise`; there is no return from one (R136): only `State.resetCore` or a new construction clears the
record.
-/

namespace Sys2Proof.Machine

/-! ### Storage cells (20_memory.md R37, R38) -/

/-- The value of the cell at an address. -/
def Memory.read : Memory → Nat → Word
  | [], _ => unsetCell
  | (k, v) :: rest, a => if k = a then v else Memory.read rest a

/-- Memory without an entry for the address. -/
def Memory.erase (m : Memory) (a : Nat) : Memory := m.filter fun c => c.1 != a

/-- An entry put before the first entry of a higher address. -/
def Memory.insert : Memory → Nat → Word → Memory
  | [], a, v => [(a, v)]
  | (k, w) :: rest, a, v => if a < k then (a, v) :: (k, w) :: rest else (k, w) :: Memory.insert rest a v

/-- A write of one cell; it keeps the canonical form (log 1). -/
def Memory.write (m : Memory) (a : Nat) (v : Word) : Memory :=
  if v = unsetCell then m.erase a else (m.erase a).insert a v

/-- An address added to a strictly rising list of addresses. -/
def markWritten : List Nat → Nat → List Nat
  | [], a => [a]
  | b :: rest, a => if a < b then a :: b :: rest else if a = b then b :: rest else b :: markWritten rest a

/-! ### Registers (10_state.md R11, R12) -/

/-- `x[i]`: index 0 reads as zero whatever is stored. -/
def State.reg (s : State) (r : Reg) : Word := if r = 0 then 0 else s.regs[r]

/-- The register file after `x[i] <- v`: a write to index 0 is discarded. -/
def writeRegFile (regs : Vector Word 32) (r : Reg) (v : Word) : Vector Word 32 :=
  if r = 0 then regs else regs.set r v

/-- `x[i] <- v`. -/
def State.writeReg (s : State) (r : Reg) (v : Word) : State := { s with regs := writeRegFile s.regs r v }

/-- `pc <- target`. -/
def State.setPc (s : State) (target : Word) : State := { s with pc := target }

/-- `HI <- h; LO <- l`. -/
def State.setHiLo (s : State) (h l : Word) : State := { s with hi := h, lo := l }

/-! ### Control state -/

/-- `running <- b` (R24). -/
def State.setRunning (s : State) (b : Bool) : State := { s with running := b }

/-- The fault record set for an instruction at address `a`; every other piece of state stays (41_core_cycle.md R96). -/
def State.raiseAt (s : State) (e : Error) (a : Word) : State := { s with fault := some ⟨e, a⟩ }

/-- The number of an error kind (60_exceptions.md R125, D23; log 25). -/
def Error.code : Error → Nat
  | .decode _ => 1
  | .alignment _ _ => 2
  | .outOfBounds _ => 3
  | .divideByZero _ => 4
  | .invalidRegister _ => 5

/-- The address of the instruction being executed: PC already holds it plus 4 (41_core_cycle.md R94, R100). -/
def State.instrAddr (s : State) : Word := s.pc - 4

/-- `raise E(info)` in the decode or execute stage (60_exceptions.md R131; log 6, 16). -/
def State.raise (s : State) (e : Error) : State := s.raiseAt e s.instrAddr

/-- The refusal mark set (10_state.md R31, 41_core_cycle.md R97). -/
def State.markRefused (s : State) : State := { s with refused := true }

/-- An entry appended to the trace; a full trace first loses its oldest entry (10_state.md R29). -/
def appendTrace (t : List TraceEntry) (e : TraceEntry) : List TraceEntry :=
  (if t.length < traceCap then t else t.tail) ++ [e]

/-- The commit stage (41_core_cycle.md R95) for the word `w` at address `a`. -/
def State.commit (s : State) (a : Word) (w : InstrWord) : State :=
  { s with instrCount := s.instrCount + 1, trace := appendTrace s.trace (.step a w) }

/-! ### The memory controller (20_memory.md R40 to R50) -/

/-- The two kinds of access (R51). -/
inductive AccessKind where
  /-- A 128-bit data access. -/
  | data
  /-- A 32-bit instruction or literal read. -/
  | fetch
  deriving DecidableEq, Repr

/-- The alignment an access needs (R40). -/
def AccessKind.align : AccessKind → Nat
  | .data => 16
  | .fetch => 4

/-- What the controller makes of an address (R42). -/
inductive Route where
  | misaligned
  | mmio
  | outOfBounds
  | storage
  deriving DecidableEq, Repr

/-- `classify(A, n)`: the checks in their order, the first that applies wins (R42, D2; log 18). -/
def classify (c : Config) (a : Word) (k : AccessKind) : Route :=
  if a.toNat % k.align ≠ 0 then .misaligned
  else if c.mmioThreshold ≤ a.toNat then .mmio
  else if c.memSize ≤ a.toNat then .outOfBounds
  else .storage

/-- How an access ends. -/
inductive Access (α : Type) where
  /-- It completes, with this result. -/
  | ok (result : α)
  /-- It raises an error (60_exceptions.md R131). -/
  | raised (e : Error)
  /-- The spec gives it no meaning (R49). -/
  | refused (r : Refusal)
  deriving DecidableEq, Repr

/-- The cell at an address, in storage (R37). -/
def State.cell (s : State) (a : Nat) : Word := s.mem.read a

/-- `M[a] <- v`; the cell counts as written from then on (R37, log 3). -/
def State.storeCell (s : State) (a : Nat) (v : Word) : State :=
  { s with mem := s.mem.write a v, written := markWritten s.written a }

/-- The value of the next read of the input port: a free value (R47, D17; log 5). -/
def State.nextDraw (s : State) : Word := Config.inputDraw s.draws

/-- One draw taken. -/
def State.afterDraw (s : State) : State := { s with draws := s.draws + 1 }

/-- A value printed at the output port (R48). -/
def State.print (s : State) (v : Word) : State := { s with outLog := s.outLog ++ [v] }

/-- `MemRead(A, 16)` (R45): the value, and the state after the read (a read of the input port takes a draw). -/
def State.memRead (s : State) (a : Word) : Access (Word × State) :=
  match classify s.config a .data with
  | .misaligned => .raised (.alignment a AccessKind.data.align)
  | .mmio => if a.toNat = s.config.inputPort then .ok (s.nextDraw, s.afterDraw) else .refused (.mmioLoad a)
  | .outOfBounds => .raised (.outOfBounds a)
  | .storage => .ok (s.cell a.toNat, s)

/-- `MemWrite(A, 16, v)` (R46): the state after the write. -/
def State.memWrite (s : State) (a v : Word) : Access State :=
  match classify s.config a .data with
  | .misaligned => .raised (.alignment a AccessKind.data.align)
  | .mmio => if a.toNat = s.config.outputPort then .ok (s.print v) else .refused (.mmioStore a)
  | .outOfBounds => .raised (.outOfBounds a)
  | .storage => .ok (s.storeCell a.toNat v)

/-- `Fetch32(A)` (R50): bits 31 to 0 of one cell. The fetch stage and the `lis` literal read use it. -/
def State.fetch32 (s : State) (a : Word) : Access InstrWord :=
  match classify s.config a .fetch with
  | .misaligned => .raised (.alignment a AccessKind.fetch.align)
  | .mmio => .refused (.mmioFetch a)
  | .outOfBounds => .raised (.outOfBounds a)
  | .storage => .ok ((s.cell a.toNat).extractLsb' 0 32)

/-- The execute stage goes on with an access's result, takes the error it raised, or has no meaning
(41_core_cycle.md R94, R96, R97). -/
def Access.elim {α : Type} (x : Access α) (s : State) (k : α → Host.Outcome State Fault Refusal) :
    Host.Outcome State Fault Refusal :=
  match x with
  | .ok a => k a
  | .raised e => .next (s.raise e)
  | .refused r => .refused r

end Sys2Proof.Machine
end

