-- ==== Sys2Proof/Machine/Operands.lean ====
section
/-!
DEFINITION. The operand forms: the sign-extended immediate as a byte offset and as a branch offset, and the literal of
`lis` (30_encoding.md R66). A register operand is `State.reg`.
-/

namespace Sys2Proof.Machine

/-- `EA = wrap(x[rs] + sext_16(imm))`, the one addressing mode (44_load_store.md R114). -/
def State.effectiveAddress (s : State) (rs : Reg) (imm : BitVec 16) : Word :=
  addWords (s.reg rs) (signExtend16 imm)

/-- `target = wrap(PC + sext_16(imm) * 4)`, with PC already advanced (45_control_transfer.md R118). -/
def State.branchTarget (s : State) (imm : BitVec 16) : Word :=
  addWords s.pc (signExtend16 imm * 4)

/-- The literal of `lis` widened to 128 bits, as LIS_EXT says (44_load_store.md R117, D8; log 21). -/
def widenLiteral (ext : LisExt) (literal : InstrWord) : Word :=
  match ext with
  | .zero => zeroExtend32 literal
  | .sign => signExtend32 literal

end Sys2Proof.Machine
end

