-- ==== Sys2Proof/Machine/ControlTransfer.lean ====
section
/-!
DEFINITION. Branches and jumps (45_control_transfer.md R118 to R124). PC already holds A + 4; there is no delay slot
(R123) and nothing here raises: a bad target faults or refuses at the next fetch. The halt convention of `jr $0` belongs to the
cycle (41_core_cycle.md R98) and is `haltConvention` in Cycle.lean.
-/

namespace Sys2Proof.Machine

/-- `if x[rs] = x[rt] then PC <- wrap(PC + sext_16(imm) * 4)` (R119). -/
def execBeq (rs rt : Reg) (imm : BitVec 16) (s : State) : Host.Outcome State Fault Refusal :=
  .next (if s.reg rs = s.reg rt then s.setPc (s.branchTarget imm) else s)

/-- `if x[rs] != x[rt] then PC <- wrap(PC + sext_16(imm) * 4)` (R120). -/
def execBne (rs rt : Reg) (imm : BitVec 16) (s : State) : Host.Outcome State Fault Refusal :=
  .next (if s.reg rs ≠ s.reg rt then s.setPc (s.branchTarget imm) else s)

/-- `PC <- x[rs]` (R121). -/
def execJr (rs : Reg) (s : State) : Host.Outcome State Fault Refusal :=
  .next (s.setPc (s.reg rs))

/-- The link register of `jalr` (10_state.md R13). -/
def linkRegister : Reg := 31

/-- `x[31] <- PC; PC <- x[rs]`, x[rs] read after the write (R122, D11; log 15). -/
def execJalr (rs : Reg) (s : State) : Host.Outcome State Fault Refusal :=
  let linked := s.writeReg linkRegister s.pc
  .next (linked.setPc (linked.reg rs))

end Sys2Proof.Machine
end

