-- ==== Sys2Proof/Machine/Flags.lean ====
section
/-!
DEFINITION. What stands in the place of flags. The core has no flag register, condition code or predicate
(10_state.md R22): a comparison delivers its result to a general register (`slt`, `sltu`) or into a branch decision (`beq`,
`bne`). This file holds the comparator of 40_arithmetic_unit.md R84.
-/

namespace Sys2Proof.Machine

/-- `compare_s(a, b) = sgn(s(a) - s(b))` (R84). -/
def compareS (a b : Word) : Int := (a.toInt - b.toInt).sign

/-- `compare_u(a, b) = sgn(u(a) - u(b))` (R84). -/
def compareU (a b : Word) : Int := ((a.toNat : Int) - b.toNat).sign

/-- The 128-bit value 1 where a comparison gave "less than" (-1), else 0 (42_integer_alu.md R105, R106). -/
def setOnLess (comparison : Int) : Word := if comparison = -1 then 1 else 0

end Sys2Proof.Machine
end

