-- ==== Sys2Proof/Machine/IntegerAlu.lean ====
section
/-!
DEFINITION. Integer add, subtract and set-less-than (42_integer_alu.md R103 to R106). PC already holds A + 4
(41_core_cycle.md R94); none of these raises, and none touches PC, HI, LO or memory.
-/

namespace Sys2Proof.Machine

/-- `x[rd] <- add(x[rs], x[rt])` (R103). -/
def execAdd (rd rs rt : Reg) (s : State) : Host.Outcome State Fault Refusal :=
  .next (s.writeReg rd (addWords (s.reg rs) (s.reg rt)))

/-- `x[rd] <- sub(x[rs], x[rt])` (R104). -/
def execSub (rd rs rt : Reg) (s : State) : Host.Outcome State Fault Refusal :=
  .next (s.writeReg rd (subWords (s.reg rs) (s.reg rt)))

/-- `x[rd] <- (compare_s(x[rs], x[rt]) = -1) ? 1 : 0` (R105). -/
def execSlt (rd rs rt : Reg) (s : State) : Host.Outcome State Fault Refusal :=
  .next (s.writeReg rd (setOnLess (compareS (s.reg rs) (s.reg rt))))

/-- `x[rd] <- (compare_u(x[rs], x[rt]) = -1) ? 1 : 0` (R106). -/
def execSltu (rd rs rt : Reg) (s : State) : Host.Outcome State Fault Refusal :=
  .next (s.writeReg rd (setOnLess (compareU (s.reg rs) (s.reg rt))))

end Sys2Proof.Machine
end

