-- ==== Sys2Proof/Machine/LoadStore.lean ====
section
/-!
DEFINITION. Loads, stores and the inline literal (44_load_store.md R114 to R117). PC already holds A + 4
(41_core_cycle.md R94); an access's checks come before every write (D13).
-/

namespace Sys2Proof.Machine

/-- `v = MemRead(EA, 16); x[rt] <- v` (R115). With rt = 0 the access, and its input-port draw, still happens. -/
def execLw (rt rs : Reg) (imm : BitVec 16) (s : State) : Host.Outcome State Fault Refusal :=
  (s.memRead (s.effectiveAddress rs imm)).elim s fun vs => .next (vs.2.writeReg rt vs.1)

/-- `MemWrite(EA, 16, x[rt])` (R116). -/
def execSw (rt rs : Reg) (imm : BitVec 16) (s : State) : Host.Outcome State Fault Refusal :=
  (s.memWrite (s.effectiveAddress rs imm) (s.reg rt)).elim s fun t => .next t

/-- `lit = Fetch32(PC); x[rd] <- lit widened; PC <- wrap(PC + 4)` (R117). -/
def execLis (rd : Reg) (s : State) : Host.Outcome State Fault Refusal :=
  (s.fetch32 s.pc).elim s fun literal =>
    .next ((s.writeReg rd (widenLiteral s.config.lisExt literal)).setPc (addWords s.pc 4))

end Sys2Proof.Machine
end

