-- ==== Sys2Proof/Machine/MultiplyDivide.lean ====
section
/-!
DEFINITION. Multiply, divide and the HI/LO moves (43_multiply_divide.md R107 to R112). PC already holds A + 4
(41_core_cycle.md R94).
-/

namespace Sys2Proof.Machine

/-- `(h, l) = multiply_s(x[rs], x[rt]); HI <- h; LO <- l` (R107, D9; log 13). -/
def execMult (rs rt : Reg) (s : State) : Host.Outcome State Fault Refusal :=
  let p := multiplyS (s.reg rs) (s.reg rt)
  .next (s.setHiLo p.1 p.2)

/-- `(h, l) = multiply_u(x[rs], x[rt]); HI <- h; LO <- l` (R108, D9; log 13). -/
def execMultu (rs rt : Reg) (s : State) : Host.Outcome State Fault Refusal :=
  let p := multiplyU (s.reg rs) (s.reg rt)
  .next (s.setHiLo p.1 p.2)

/-- The end of a divide: LO the quotient and HI the remainder, or the DivideByZeroError of the divisor's register
(R109, R110; 60_exceptions.md R129). -/
def State.finishDivide (s : State) (rt : Reg) (qr : Option (Word × Word)) : Host.Outcome State Fault Refusal :=
  match qr with
  | none => .next (s.raise (.divideByZero rt))
  | some (q, r) => .next (s.setHiLo r q)

/-- `(q, r) = divide_s(x[rs], x[rt]); LO <- q; HI <- r` (R109, D10; log 14). -/
def execDiv (rs rt : Reg) (s : State) : Host.Outcome State Fault Refusal :=
  s.finishDivide rt (divideS (s.reg rs) (s.reg rt))

/-- `(q, r) = divide_u(x[rs], x[rt]); LO <- q; HI <- r` (R110, D10; log 14). -/
def execDivu (rs rt : Reg) (s : State) : Host.Outcome State Fault Refusal :=
  s.finishDivide rt (divideU (s.reg rs) (s.reg rt))

/-- `x[rd] <- HI` (R111). -/
def execMfhi (rd : Reg) (s : State) : Host.Outcome State Fault Refusal :=
  .next (s.writeReg rd s.hi)

/-- `x[rd] <- LO` (R112). -/
def execMflo (rd : Reg) (s : State) : Host.Outcome State Fault Refusal :=
  .next (s.writeReg rd s.lo)

end Sys2Proof.Machine
end

