-- ==== Sys2Proof/Machine/Cycle.lean ====
section
/-!
DEFINITION. The fetch-decode-execute cycle (41_core_cycle.md R91 to R100): when it may run, its stages, and how it
ends. Step.lean's `step` is `cycle`; the host's direct execute is `directExecute`.
-/

namespace Sys2Proof.Machine

/-- Who runs the decode, execute and commit stages: a cycle, or the host's direct execute (R100). -/
inductive Caller where
  | cycle
  | direct
  deriving DecidableEq, Repr

/-- A cycle is enabled: running, no fault recorded, not refused (R91). -/
def State.enabled (s : State) : Bool := s.running && s.fault.isNone && !s.refused

/-- `jr` with rs field 0, the halt convention's instruction (R98, D16). -/
def isHalt : Instr → Bool
  | .jr rs => rs == 0
  | .add _ _ _ | .sub _ _ _ | .slt _ _ _ | .sltu _ _ _ | .mult _ _ | .multu _ _ | .div _ _ | .divu _ _
  | .mfhi _ | .mflo _ | .lis _ | .jalr _ | .lw _ _ _ | .sw _ _ _ | .beq _ _ _ | .bne _ _ _ => false

/-- After a completed CYCLE of `jr $0`, `running <- false` (R98, D16; log 9). -/
def haltConvention (who : Caller) (i : Instr) (s : State) : State :=
  if who = .cycle ∧ isHalt i then s.setRunning false else s

/-- How the execute stage's outcome ends the cycle (R95, R96, R97): a completed instruction commits, and may halt; a
raised error leaves the state the raise gave; a refusal leaves the state `pre` from before the cycle, marked (log 8). -/
def finishInstr (who : Caller) (pre : State) (a : Word) (w : InstrWord) (i : Instr) :
    Host.Outcome State Fault Refusal → Host.Outcome State Fault Refusal
  | .next t => .next (if t.fault.isSome then t else haltConvention who i (t.commit a w))
  | .fault f => .fault f
  | .refused _ => .next pre.markRefused

/-- The decode, execute and commit stages for the word `w`, with PC already advanced (R93, R94, R95). -/
def runWord (who : Caller) (pre s : State) (w : InstrWord) : Host.Outcome State Fault Refusal :=
  match decode w with
  | .error e => .next (s.raise (.decode e))
  | .ok i => finishInstr who pre s.instrAddr w i (exec i s)

/-- PC after the fetch stage: `wrap(A + 4)` (R92). -/
def State.advancePc (s : State) : State := s.setPc (addWords s.pc 4)

/-- One cycle, with the fetch stage first (R92). Where none is enabled the core makes no transition (R91; log 7). -/
def cycle (s : State) : Host.Outcome State Fault Refusal :=
  if s.fault.isSome then .fault .faultRecorded
  else if s.refused then .fault .refusalRecorded
  else if !s.running then .fault .coreIdle
  else
    match s.fetch32 s.pc with
    | .raised e => .next (s.raiseAt e s.pc)
    | .refused _ => .next s.markRefused
    | .ok w => runWord .cycle s s.advancePc w

/-- The host's direct `execute(word)`: no fetch, PC not advanced, whatever `running` is (R100; log 30). -/
def directExecute (s : State) (w : InstrWord) : Host.Outcome State Fault Refusal :=
  if s.fault.isSome then .fault .faultRecorded
  else if s.refused then .fault .refusalRecorded
  else runWord .direct s s w

/-- The host's loader puts one 32-bit word into a cell, widened with zeros (70_reset_and_hazards.md R153). -/
def State.placeWord (s : State) (a : Nat) (w : InstrWord) : State := s.storeCell a (zeroExtend32 w)

/-- An address the next fetch can read from storage (20_memory.md R42, R50). -/
def State.fetchable (s : State) (a : Word) : Bool := classify s.config a .fetch == .storage

/-- The state with the instruction of word `w mod 2^nbits` placed where the next cycle fetches, and a cycle enabled: the
loader's placing of the word (and of a zero literal where it is a `lis`) and the host's `start` (log 11). -/
def State.placeFetchWord (s : State) (nbits w : Nat) : State :=
  let word := BitVec.ofNat 32 (w % 2 ^ nbits)
  let pc := if s.fetchable s.pc then s.pc else 0
  let placed := (s.placeWord pc.toNat word).setPc pc
  let withLiteral := match decode word with
    | .ok (.lis _) => if placed.fetchable (addWords pc 4) then placed.placeWord (addWords pc 4).toNat 0 else placed
    | _ => placed
  { withLiteral with running := true, fault := none, refused := false }

end Sys2Proof.Machine
end

