-- ==== Sys2Proof/Machine/Step.lean ====
section
/-! DEFINITION. The machine's step: one fetch-decode-execute cycle (41_core_cycle.md R91). -/

namespace Sys2Proof.Machine

/-- One cycle of the core (Cycle.lean). -/
def step (s : State) : Host.Outcome State Fault Refusal := cycle s

/-- `s` with an instruction stored where `step` fetches its next one (Cycle.lean, log 11). -/
def State.withFetchWord (s : State) (nbits w : Nat) : State := s.placeFetchWord nbits w

end Sys2Proof.Machine
end

