-- ==== Sys2Proof/Machine/HostCommands.lean ====
section
/-!
DEFINITION. The host's commands (70_reset_and_hazards.md R146 to R155): each is atomic and runs between cycles. They are
not instructions; `HostCommand.cycle` is the machine's `step`.
-/

namespace Sys2Proof.Machine

/-- The state a snapshot shows (R154): the register file, PC, HI, LO, the running flag, the sparse memory map and the
execution mode. Not `instrCount`, `trace`, `fault`, `refused` or `outLog`. -/
structure Snapshot where
  registers : Vector Word 32
  pc : Word
  hi : Word
  lo : Word
  running : Bool
  memory : List (Nat × Word)
  executionMode : ExecMode
  deriving DecidableEq, Repr

/-- A snapshot's serialised form (R154, D25): hex-string values, registers by name. -/
structure SnapshotText where
  registers : List (String × String)
  pc : String
  hi : String
  lo : String
  running : Bool
  memory : List (Nat × String)
  executionMode : ExecMode
  deriving DecidableEq, Repr

/-- The commands of R150. -/
inductive HostCommand where
  | construct
  | reset
  | start
  | stop
  | cycle
  | execute (word : InstrWord)
  | readReg (index : Int)
  | writeReg (index : Int) (value : Word)
  | loadWord (addr : Word)
  | storeWord (addr value : Word)
  | loadProgram (base : Nat) (words : List InstrWord)
  | snapshot
  | restore (from_ : Snapshot)
  | dump (start length : Nat)
  deriving DecidableEq, Repr

/-- What a command gives back to the host. -/
inductive HostReply where
  /-- The command is done and gives no value. -/
  | done
  /-- A 128-bit value. -/
  | value (v : Word)
  /-- A typed failure, returned to the host. One of a register or memory access or of the loader changes no state (R151,
  R152, R153); one of a cycle or a direct execute is the error its fault record holds (60_exceptions.md R131, log 36). -/
  | error (e : Error)
  /-- A snapshot (R154). -/
  | snapshot (s : Snapshot)
  /-- Written cells (R154). -/
  | cells (c : List (Nat × Word))
  /-- The command has no meaning and set the refusal mark (R152, R154; for a cycle or a direct execute log 36). -/
  | refused
  deriving DecidableEq, Repr

/-- The outcome of a host command. -/
abbrev HostOutcome := Host.Outcome (State × HostReply) Fault Refusal

/-- The register of a host's index, if it is one of 0 to 31 (R151). -/
def hostRegister? (index : Int) : Option Reg :=
  if h : 0 ≤ index ∧ index < 32 then some ⟨index.toNat, by omega⟩ else none

/-- `construct` (R146): a fresh core with the same parameters. The draw counter goes on, so that the fresh core's draws are
fresh too (log 30). -/
def State.constructAgain (s : State) : State := { State.construct s.config with draws := s.draws }

/-- What `cycle` and `execute` give back, by the state they leave: the error of a fault, "surfaced to the caller as a typed
failure" (60_exceptions.md R131), the refusal, or that the instruction completed. DESIGN CHOICE (log 36): the spec says no more
of what these two commands return. -/
def replyAfter (t : State) : HostReply :=
  match t.fault with
  | some f => .error f.error
  | none => if t.refused then .refused else .done

/-- How a step of the machine ends a host command: the state it leaves, with its reply; where no cycle is enabled the command is
not enabled either (log 7). -/
def ofStep : Host.Outcome State Fault Refusal → HostOutcome
  | .next t => .next (t, replyAfter t)
  | .fault f => .fault f
  | .refused r => .refused r

/-- `readReg(i)` (R151). -/
def hostReadReg (s : State) (index : Int) : HostOutcome :=
  match hostRegister? index with
  | some r => .next (s, .value (s.reg r))
  | none => .next (s, .error (.invalidRegister index))

/-- `writeReg(i, v)` (R151). -/
def hostWriteReg (s : State) (index : Int) (v : Word) : HostOutcome :=
  match hostRegister? index with
  | some r => .next (s.writeReg r v, .done)
  | none => .next (s, .error (.invalidRegister index))

/-- `loadWord(a)` (R152): the controller's read; an error goes back to the host and is not recorded. -/
def hostLoadWord (s : State) (a : Word) : HostOutcome :=
  match s.memRead a with
  | .ok (v, t) => .next (t, .value v)
  | .raised e => .next (s, .error e)
  | .refused _ => .next (s.markRefused, .refused)

/-- `storeWord(a, v)` (R152). -/
def hostStoreWord (s : State) (a v : Word) : HostOutcome :=
  match s.memWrite a v with
  | .ok t => .next (t, .done)
  | .raised e => .next (s, .error e)
  | .refused _ => .next (s.markRefused, .refused)

/-- `M[base + 4i] <- zext_32(wi)` for each i (R153). -/
def State.placeWords (s : State) (base : Nat) : List InstrWord → State
  | [] => s
  | w :: rest => (s.placeWord base w).placeWords (base + 4) rest

/-- The address R153's bound is checked on: `base + 4(n-1)`. -/
def lastWordAddr (base : Nat) (words : List InstrWord) : Int := base + 4 * ((words.length : Int) - 1)

/-- `loadProgram(base, words)` (R153; log 27). The base is any natural number, and both errors carry an address of 128 bits: one of
2^128 or more is reported modulo 2^128. DESIGN CHOICE (log 38): the spec does not say which address the error then carries. -/
def hostLoadProgram (s : State) (base : Nat) (words : List InstrWord) : HostOutcome :=
  if base % 4 ≠ 0 then .next (s, .error (.alignment (BitVec.ofNat 128 base) AccessKind.fetch.align))
  else if (s.config.memSize : Int) ≤ lastWordAddr base words then
    .next (s, .error (.outOfBounds (wrap (lastWordAddr base words))))
  else .next (s.placeWords base words, .done)

/-- The written cells among some addresses, with their values. -/
def State.cellsAt (s : State) (addrs : List Nat) : List (Nat × Word) := addrs.map fun a => (a, s.cell a)

/-- `snapshot()` (R154). -/
def State.snapshot (s : State) : Snapshot where
  registers := Vector.ofFn s.reg
  pc := s.pc
  hi := s.hi
  lo := s.lo
  running := s.running
  memory := s.cellsAt s.written
  executionMode := s.executionMode

/-- `restore(s)` (R154), of a snapshot whose memory keys are all below MEM_SIZE: exactly the snapshot's components are set;
`$0` stays hard-wired to zero (10_state.md R11; log 28). `running` is one of the components, and is set by the one operation that
`start` and `stop` are: restoring a snapshot of a running core starts it. That 60_exceptions.md R145 ("Only the host's `start` leaves
Idle") does not forbid this is DEDUCED (log 35). -/
def State.restored (s : State) (n : Snapshot) : State :=
  { s.setRunning n.running with
    regs := n.registers.set 0 0
    pc := n.pc
    hi := n.hi
    lo := n.lo
    mem := n.memory.foldl (fun m c => m.write c.1 c.2) []
    written := n.memory.foldl (fun l c => markWritten l c.1) []
    executionMode := n.executionMode }

/-- `restore(s)`: a memory key at or above MEM_SIZE makes it refused (R154). -/
def hostRestore (s : State) (n : Snapshot) : HostOutcome :=
  if n.memory.all fun c => decide (c.1 < s.config.memSize) then .next (s.restored n, .done)
  else .next (s.markRefused, .refused)

/-- `dump(start, length)`: the written cells in [start, start + length) (R154). -/
def State.dump (s : State) (start length : Nat) : List (Nat × Word) :=
  s.cellsAt (s.written.filter fun a => decide (start ≤ a ∧ a < start + length))

/-- What a host command does (R150). `cycle` and `execute` stop where they are not enabled (41_core_cycle.md R91, R100);
every other command is allowed in every state. -/
def hostCommand (c : HostCommand) (s : State) : HostOutcome :=
  match c with
  | .construct => .next (s.constructAgain, .done)
  | .reset => .next (s.resetCore, .done)
  | .start => .next (s.setRunning true, .done)
  | .stop => .next (s.setRunning false, .done)
  | .cycle => ofStep (step s)
  | .execute w => ofStep (directExecute s w)
  | .readReg i => hostReadReg s i
  | .writeReg i v => hostWriteReg s i v
  | .loadWord a => hostLoadWord s a
  | .storeWord a v => hostStoreWord s a v
  | .loadProgram base words => hostLoadProgram s base words
  | .snapshot => .next (s, .snapshot s.snapshot)
  | .restore n => hostRestore s n
  | .dump start length => .next (s, .cells (s.dump start length))

/-! ### Rendering of a snapshot (R154, D25) -/

/-- The 32 hex digits of a value, most significant first (D25). The letters are capitals, as the spec writes its own
constants: DESIGN CHOICE (log 28). -/
def hexDigits (w : Word) : List Char :=
  (List.range 32).map fun k =>
    let d := w.toNat / 16 ^ (31 - k) % 16
    if d < 10 then Char.ofNat (48 + d) else Char.ofNat (55 + d)

/-- The hex string of a value. -/
def hexString (w : Word) : String := String.ofList (hexDigits w)

/-- The name of a register, `$0` to `$31` (30_encoding.md R76, D25). -/
def registerName (r : Reg) : String := "$" ++ toString r.val

/-- A snapshot's serialised form. -/
def Snapshot.render (n : Snapshot) : SnapshotText where
  registers := (List.finRange 32).map fun r => (registerName r, hexString n.registers[r])
  pc := hexString n.pc
  hi := hexString n.hi
  lo := hexString n.lo
  running := n.running
  memory := n.memory.map fun c => (c.1, hexString c.2)
  executionMode := n.executionMode

end Sys2Proof.Machine
end

