-- ==== Sys2Proof/WellFormed.lean ====
section
/-!
DEFINITION. What is well formed: the constraints on the parameters (00_scope.md R6), and the assembler's ranges for the
operands of an instruction written as plain numbers (30_encoding.md R76 to R78).

An `Instr` term itself needs no check: a register field has 5 bits and so is always 0 to 31 (10_state.md R14), every value of
every field is admitted (30_encoding.md R65, R75), and the types `Reg` and `BitVec 16` say exactly that. The checks are made
where an operand comes from outside as a number.
-/

namespace Sys2Proof

/-- MEM_SIZE is a multiple of 16 with 0 < MEM_SIZE <= MMIO_THRESHOLD (00_scope.md R6, D3). -/
def Config.memSizeOk (c : Config) : Bool :=
  c.memSize % 16 == 0 && decide (0 < c.memSize) && decide (c.memSize ≤ c.mmioThreshold)

/-- MMIO_THRESHOLD is a multiple of 16 and at most 2^32 (00_scope.md R6, D4). -/
def Config.thresholdOk (c : Config) : Bool :=
  c.mmioThreshold % 16 == 0 && decide (c.mmioThreshold ≤ 2 ^ 32)

/-- A port address is a multiple of 16 in [MMIO_THRESHOLD, 2^32) (00_scope.md R6, D4). -/
def Config.portOk (c : Config) (port : Nat) : Bool :=
  port % 16 == 0 && decide (c.mmioThreshold ≤ port) && decide (port < 2 ^ 32)

/-- Every constraint of 00_scope.md R6; the two ports are distinct. -/
def Config.wellFormed (c : Config) : Bool :=
  c.memSizeOk && c.thresholdOk && c.portOk c.inputPort && c.portOk c.outputPort
    && decide (c.outputPort ≠ c.inputPort)

/-- A register number that assembly text may write, `$0` to `$31` (30_encoding.md R76). -/
def registerNumberOk (n : Nat) : Bool := decide (n < 32)

/-- An immediate that assembly text may write: -32768 to 32767 (30_encoding.md R78). -/
def immediateOk (i : Int) : Bool := decide (-32768 ≤ i) && decide (i ≤ 32767)

/-- The register of a number that passes the check; none for a number that does not. -/
def Reg.ofNumber? (n : Nat) : Option Reg := if h : n < 32 then some ⟨n, h⟩ else none

/-- The field of an immediate that passes the check: its 16-bit two's-complement form (30_encoding.md R78). -/
def immediateField? (i : Int) : Option (BitVec 16) :=
  if immediateOk i then some (BitVec.ofInt 16 i) else none

end Sys2Proof
end

