-- ==== Sys2Proof/Machine/Run.lean ====
section
/-!
DEFINITION. Runs (41_core_cycle.md R101, R102): where one starts, the states it passes through, and how it ends. A claim about
a run assumes that the host issues only `cycle` and read-only commands until its end (70_reset_and_hazards.md R155), and the
read-only commands change no state: so a run is the sequence of its cycles (log 37).
-/

namespace Sys2Proof.Machine

/-! ### Where a run starts -/

/-- The states that construction, with parameters that meet their constraints, host commands and cycles can reach. -/
inductive Reached : State → Prop where
  /-- A constructed core (70_reset_and_hazards.md R146). -/
  | constructed (c : Config) (h : c.wellFormed = true) : Reached (State.construct c)
  /-- What a host command leaves, `cycle` among them (R150). -/
  | command {s t : State} (c : HostCommand) (r : HostReply) (hs : Reached s) (h : hostCommand c s = .next (t, r)) : Reached t

/-- The commands by which the host loads memory and sets registers before a run, and those by which it looks at
the core (R149; log 37). -/
def HostCommand.prepares : HostCommand → Bool
  | .writeReg _ _ | .storeWord _ _ | .loadProgram _ _ | .restore _ => true
  | .readReg _ | .loadWord _ | .snapshot | .dump _ _ => true
  | .construct | .reset | .start | .stop | .cycle | .execute _ => false

/-- The states in which the host may issue `start`: a constructed or a reset core, with memory loaded and registers set (R149). -/
inductive Prepared : State → Prop where
  /-- A constructed core. -/
  | constructed (c : Config) (h : c.wellFormed = true) : Prepared (State.construct c)
  /-- What the command `construct` leaves: a fresh core whose draws go on (log 30). -/
  | constructedAgain {s : State} (hs : Reached s) : Prepared s.constructAgain
  /-- A reset core; its memory is what it was before (R147). -/
  | reset {s : State} (hs : Reached s) : Prepared s.resetCore
  /-- What a preparing command leaves. -/
  | command {s t : State} (c : HostCommand) (r : HostReply) (hs : Prepared s) (hc : c.prepares = true)
      (h : hostCommand c s = .next (t, r)) : Prepared t

/-- A run starts in the state that `start` leaves of a prepared one (41_core_cycle.md R102). -/
def State.RunStart (s : State) : Prop := ∃ p, Prepared p ∧ hostCommand .start p = .next (s, .done)

/-! ### Its states -/

/-- The state `k` cycles after `s`; none where a cycle on the way is not enabled. -/
def State.afterCycles : Nat → State → Option State
  | 0, s => some s
  | k + 1, s =>
    match step s with
    | .next t => t.afterCycles k
    | .fault _ => none
    | .refused _ => none

/-- How one state stands, whatever led to it. -/
inductive Standing where
  /-- A cycle is enabled. -/
  | going
  /-- `running = false`, no fault, not refused. This alone is no end of a run: a core that was only reset, or that the host
  stopped, stands so too. -/
  | idle
  /-- A fault is recorded. -/
  | faulted
  /-- The refusal mark is set: the state has no meaning. -/
  | noMeaning
  deriving DecidableEq, Repr

/-- The standing of a state. -/
def State.standing (s : State) : Standing :=
  if s.refused then .noMeaning
  else if s.fault.isSome then .faulted
  else if s.running then .going
  else .idle

/-! ### How it ends -/

/-- The ends of a run (41_core_cycle.md R102). -/
inductive RunEnd where
  /-- The normal end: the first state with `running = false`, no fault and no refusal that a CYCLE reaches. -/
  | normal
  /-- A state with a fault recorded: never a normal end. -/
  | faulted
  /-- A state with the refusal mark: it has no meaning, and no claim may rest on it. -/
  | noMeaning
  deriving DecidableEq, Repr

/-- What an end says of the last state `t` and of the number `k` of cycles before it. -/
def RunEnd.holds (e : RunEnd) (k : Nat) (t : State) : Prop :=
  match e with
  | .normal => 0 < k ∧ t.standing = .idle
  | .faulted => t.standing = .faulted
  | .noMeaning => t.standing = .noMeaning

/-- The run from `s` ends after `k` cycles, in `t`, with end `e`: every state before was going, so `t` is the first end state. -/
structure State.EndsAt (s : State) (k : Nat) (t : State) (e : RunEnd) : Prop where
  reached : s.afterCycles k = some t
  first : ∀ j, j < k → ∃ u, s.afterCycles j = some u ∧ u.standing = .going
  ending : e.holds k t

/-- The run from `s` is infinite: it never reaches an end state. -/
def State.RunsForever (s : State) : Prop := ∀ k, ∃ t, s.afterCycles k = some t ∧ t.standing = .going

end Sys2Proof.Machine
end

