-- ==== Sys2Proof/Safety.lean ====
section
/-!
DEFINITION. The terms claims are stated in: the machine's invariant, what an instruction leaves unchanged, and
the write tables of 10_state.md R12 and R21.
-/

namespace Sys2Proof.Machine

/-! ### The invariant -/

/-- What holds of every state that construction, host commands and cycles can reach. -/
structure State.Inv (s : State) : Prop where
  /-- The parameters meet their constraints (00_scope.md R6). -/
  config_wellFormed : s.config.wellFormed = true
  /-- `$0` holds zero (10_state.md R11). -/
  zero_register : s.regs[0] = 0
  /-- Memory is in canonical form (20_memory.md R37, R38). -/
  mem_wf : s.mem.wf = true
  /-- A cell that differs from an unset one has been written (R38). -/
  listed_written : ∀ c ∈ s.mem, c.1 ∈ s.written
  /-- The written addresses are listed in rising order. -/
  written_rising : s.written.Pairwise (· < ·)
  /-- Storage is a map on [0, MEM_SIZE) (R37). -/
  written_inBounds : ∀ a ∈ s.written, a < s.config.memSize
  /-- The trace holds at most TRACE_CAP entries (10_state.md R29). -/
  trace_bounded : s.trace.length ≤ traceCap
  /-- The trace holds one entry for each counted instruction, and the reset marker if there was a reset, up to its
  capacity (R28, R29, R32). -/
  trace_counts : s.trace.length = min traceCap s.instrCount ∨ s.trace.length = min traceCap (s.instrCount + 1)

/-! ### Frames: what an instruction leaves unchanged -/

/-- Parameters, run flag, mode tag, counter, trace, fault record and refusal mark are unchanged. -/
structure SameControl (s t : State) : Prop where
  config : t.config = s.config
  running : t.running = s.running
  executionMode : t.executionMode = s.executionMode
  instrCount : t.instrCount = s.instrCount
  trace : t.trace = s.trace
  fault : t.fault = s.fault
  refused : t.refused = s.refused

/-- HI and LO are unchanged. -/
structure SameHiLo (s t : State) : Prop where
  hi : t.hi = s.hi
  lo : t.lo = s.lo

/-- Every cell of storage reads as before, and the same cells count as written. -/
structure SameStorage (s t : State) : Prop where
  cell : ∀ a, t.cell a = s.cell a
  written : t.written = s.written

/-- The output log and the count of input draws are unchanged. -/
structure SamePorts (s t : State) : Prop where
  outLog : t.outLog = s.outLog
  draws : t.draws = s.draws

/-- Every general register reads as before. -/
def SameRegs (s t : State) : Prop := ∀ r, t.reg r = s.reg r

/-- Register `rd` reads `v`, unless it is `$0`, which discards the write and reads zero; every other register reads as
before (10_state.md R11). -/
def RegWritten (s t : State) (rd : Reg) (v : Word) : Prop :=
  ∀ r, t.reg r = if r = rd ∧ r ≠ 0 then v else s.reg r

/-- The instruction completes; its only effect is that register `rd` becomes `v`. -/
def CompletesWriting (i : Instr) (s : State) (rd : Reg) (v : Word) : Prop :=
  ∃ t, exec i s = .next t ∧ RegWritten s t rd v ∧ t.pc = s.pc
    ∧ SameHiLo s t ∧ SameControl s t ∧ SameStorage s t ∧ SamePorts s t

/-- The instruction completes; its only effect is that HI and LO become values that `result hi lo` says. -/
def CompletesHiLo (i : Instr) (s : State) (result : Word → Word → Prop) : Prop :=
  ∃ t, exec i s = .next t ∧ result t.hi t.lo ∧ SameRegs s t ∧ t.pc = s.pc
    ∧ SameControl s t ∧ SameStorage s t ∧ SamePorts s t

/-- The instruction completes; its only effect is that PC becomes `target`. -/
def CompletesGoing (i : Instr) (s : State) (target : Word) : Prop :=
  ∃ t, exec i s = .next t ∧ t.pc = target ∧ SameRegs s t
    ∧ SameHiLo s t ∧ SameControl s t ∧ SameStorage s t ∧ SamePorts s t

/-- The instruction takes the error `e`: the record is set for the instruction's address, nothing else changes
(41_core_cycle.md R94, R96). -/
def Raises (i : Instr) (s : State) (e : Error) : Prop :=
  exec i s = .next { s with fault := some ⟨e, s.pc - 4⟩ }

/-- A data address that reaches storage (20_memory.md R42). -/
def DataStorage (s : State) (a : Word) : Prop :=
  a.toNat % 16 = 0 ∧ a.toNat < s.config.mmioThreshold ∧ a.toNat < s.config.memSize

/-- An address that a fetch or a literal read can read (20_memory.md R42, R50). -/
def FetchStorage (s : State) (a : Word) : Prop :=
  a.toNat % 4 = 0 ∧ a.toNat < s.config.mmioThreshold ∧ a.toNat < s.config.memSize

/-- A data address of the MMIO range (20_memory.md R42, R44). -/
def DataMmio (s : State) (a : Word) : Prop :=
  a.toNat % 16 = 0 ∧ s.config.mmioThreshold ≤ a.toNat

/-! ### Write tables -/

/-- The general register an instruction writes (10_state.md R12). -/
def writesReg : Instr → Option Reg
  | .add rd _ _ | .sub rd _ _ | .slt rd _ _ | .sltu rd _ _ | .mfhi rd | .mflo rd | .lis rd => some rd
  | .lw rt _ _ => some rt
  | .jalr _ => some 31
  | .mult _ _ | .multu _ _ | .div _ _ | .divu _ _ | .jr _ | .sw _ _ _ | .beq _ _ _ | .bne _ _ _ => none

/-- The instructions that write HI and LO (10_state.md R21). -/
def writesHiLo : Instr → Bool
  | .mult _ _ | .multu _ _ | .div _ _ | .divu _ _ => true
  | .add _ _ _ | .sub _ _ _ | .slt _ _ _ | .sltu _ _ _ | .mfhi _ | .mflo _ | .lis _ | .jr _ | .jalr _
  | .lw _ _ _ | .sw _ _ _ | .beq _ _ _ | .bne _ _ _ => false

/-- The instruction that reads HI (10_state.md R21). -/
def readsHi : Instr → Bool
  | .mfhi _ => true
  | .add _ _ _ | .sub _ _ _ | .slt _ _ _ | .sltu _ _ _ | .mult _ _ | .multu _ _ | .div _ _ | .divu _ _
  | .mflo _ | .lis _ | .jr _ | .jalr _ | .lw _ _ _ | .sw _ _ _ | .beq _ _ _ | .bne _ _ _ => false

/-- The instruction that reads LO (10_state.md R21). -/
def readsLo : Instr → Bool
  | .mflo _ => true
  | .add _ _ _ | .sub _ _ _ | .slt _ _ _ | .sltu _ _ _ | .mult _ _ | .multu _ _ | .div _ _ | .divu _ _
  | .mfhi _ | .lis _ | .jr _ | .jalr _ | .lw _ _ _ | .sw _ _ _ | .beq _ _ _ | .bne _ _ _ => false

/-! ### Comparing runs -/

/-- An outcome with its next state, if it has one, seen through `f`. -/
def mapNext {α : Type} (f : State → α) : Host.Outcome State Fault Refusal → Host.Outcome α Fault Refusal
  | .next t => .next (f t)
  | .fault r => .fault r
  | .refused r => .refused r

end Sys2Proof.Machine
end

