-- ==== Sys2Proof/Certificates/Slice0/Obligations.lean ====
section
/-!
DEFINITION. The statements for the provers. Each is written from the numbered rules of spec/ that its entry of
OBLIGATIONS.json cites; "log n" is notes/assumptions/n.md and "D n" a row of 92_eei_decisions.md. `exec` runs in the execute
stage, with PC already advanced past the instruction (41_core_cycle.md R94).
-/

open Sys2Proof Sys2Proof.Machine

/-! ### Encoding and decoding -/

/-- Words the spec writes out (95_test_vectors.md) decode to the instructions they stand for, one of each family and shape. -/
def Obligations.SpecWordsDecode : Prop :=
  decode 0x00221820 = .ok (.add 3 1 2)
    ∧ decode 0x0022182A = .ok (.slt 3 1 2)
    ∧ decode 0x00220018 = .ok (.mult 1 2)
    ∧ decode 0x0022001A = .ok (.div 1 2)
    ∧ decode 0x00001812 = .ok (.mflo 3)
    ∧ decode 0x00000814 = .ok (.lis 1)
    ∧ decode 0x03E00008 = .ok (.jr 31)
    ∧ decode 0x00A00009 = .ok (.jalr 5)
    ∧ decode 0x8C22FFF0 = .ok (.lw 2 1 0xFFF0)
    ∧ decode 0xAC220010 = .ok (.sw 2 1 0x0010)
    ∧ decode 0x10220004 = .ok (.beq 1 2 4)
    ∧ decode 0x1420FFFD = .ok (.bne 1 0 0xFFFD)

/-- Decoding an instruction's own word gives it back, with every operand at every value. -/
def Obligations.DecodeOfEncode : Prop := ∀ i, decode (encode i) = .ok i

/-- Re-encoding a decoded word keeps exactly its used bits: no used bit is dropped, every ignored field becomes 0. That ignored
fields are assembled as 0 is 30_encoding.md section 5 with D26 (log 31). -/
def Obligations.EncodeOfDecodeKeepsUsedBits : Prop :=
  ∀ w i, decode w = .ok i → encode i = w &&& usedBits i

/-- Only opcode and function select an instruction: a word that agrees with a decoded one on them is a word of the same row; and
a field the instruction does not use may hold any value. -/
def Obligations.OnlySelectingAndUsedFieldsMatter : Prop :=
  ∀ w i, decode w = .ok i →
    w &&& selectMask i = selectValue i
    ∧ (∀ w', w' &&& selectMask i = selectValue i →
        ∃ j, decode w' = .ok j ∧ selectMask j = selectMask i ∧ selectValue j = selectValue i)
    ∧ ∀ w', w' &&& usedBits i = w &&& usedBits i → decode w' = .ok i

/-- A word with opcode 0 and a function outside the map is a decode failure naming the function; 51 of the 64 values are,
0x00 and 0x3F among them; the host's direct execute of a word of function 0x3F changes nothing but the fault record (which is
the spec's place for the error: D14, log 6; its address is PC - 4 by D12, log 16). -/
def Obligations.UnknownFunctionRejected : Prop :=
  (∀ w, opcodeField w = 0 →
    functionField w ∉ ([0x20, 0x22, 0x18, 0x19, 0x1A, 0x1B, 0x10, 0x12, 0x14, 0x08, 0x09, 0x2A, 0x2B] : List (BitVec 6)) →
    decode w = .error ⟨.function, functionField w⟩)
  ∧ ((List.range 64).filter fun k =>
      decode (BitVec.ofNat 32 k) = .error ⟨.function, BitVec.ofNat 6 k⟩).length = 51
  ∧ decode 0x00000000 = .error ⟨.function, 0x00⟩
  ∧ ∀ (s : State) (w : InstrWord), s.fault = none → s.refused = false →
      opcodeField w = 0 → functionField w = 0x3F →
      directExecute s w = .next { s with fault := some ⟨.decode ⟨.function, 0x3F⟩, s.pc - 4⟩ }

/-- A word whose opcode is nonzero and outside the map is a decode failure naming the opcode; 59 of the 63 nonzero opcodes
are, 0x02 and 0x03 among them. -/
def Obligations.UnknownOpcodeRejected : Prop :=
  (∀ w, opcodeField w ≠ 0 → opcodeField w ∉ ([0x23, 0x2B, 0x04, 0x05] : List (BitVec 6)) →
    decode w = .error ⟨.opcode, opcodeField w⟩)
  ∧ ((List.range 64).filter fun k =>
      k ≠ 0 ∧ decode (BitVec.ofNat 32 (k * 2 ^ 26)) = .error ⟨.opcode, BitVec.ofNat 6 k⟩).length = 59
  ∧ ∀ w, (opcodeField w = 0x02 ∨ opcodeField w = 0x03) → decode w = .error ⟨.opcode, opcodeField w⟩

/-! ### Integer ALU (42_integer_alu.md) -/

/-- `add`: every word of its encoding decodes to it, and it writes the sum modulo 2^128 to rd and nothing else. -/
def Obligations.AddEffect : Prop :=
  ∀ (s : State) (rd rs rt : Reg) (shamt : BitVec 5),
    decode (encodeR rs rt rd shamt 0x20) = .ok (.add rd rs rt)
    ∧ CompletesWriting (.add rd rs rt) s rd
        (BitVec.ofNat 128 (((s.reg rs).toNat + (s.reg rt).toNat) % 2 ^ 128))

/-- `sub`: every word of its encoding decodes to it, and it writes the difference modulo 2^128 to rd and nothing else. -/
def Obligations.SubEffect : Prop :=
  ∀ (s : State) (rd rs rt : Reg) (shamt : BitVec 5),
    decode (encodeR rs rt rd shamt 0x22) = .ok (.sub rd rs rt)
    ∧ CompletesWriting (.sub rd rs rt) s rd
        (BitVec.ofInt 128 ((((s.reg rs).toNat : Int) - (s.reg rt).toNat) % 2 ^ 128))

/-- `slt`: every word of its encoding decodes to it, and it writes 1 or 0 to rd as the signed readings compare. -/
def Obligations.SltEffect : Prop :=
  ∀ (s : State) (rd rs rt : Reg) (shamt : BitVec 5),
    decode (encodeR rs rt rd shamt 0x2A) = .ok (.slt rd rs rt)
    ∧ CompletesWriting (.slt rd rs rt) s rd (if (s.reg rs).toInt < (s.reg rt).toInt then 1 else 0)

/-- `sltu`: every word of its encoding decodes to it, and it writes 1 or 0 to rd as the unsigned readings compare. -/
def Obligations.SltuEffect : Prop :=
  ∀ (s : State) (rd rs rt : Reg) (shamt : BitVec 5),
    decode (encodeR rs rt rd shamt 0x2B) = .ok (.sltu rd rs rt)
    ∧ CompletesWriting (.sltu rd rs rt) s rd (if (s.reg rs).toNat < (s.reg rt).toNat then 1 else 0)

/-! ### Multiply and divide (43_multiply_divide.md) -/

/-- `mult` leaves in HI:LO the 256-bit two's-complement product of the SIGNED readings, and nothing else. That `mult` is
signed is the spec's decision D9 (log 13). -/
def Obligations.MultEffect : Prop :=
  ∀ (s : State) (rs rt rd : Reg) (shamt : BitVec 5),
    decode (encodeR rs rt rd shamt 0x18) = .ok (.mult rs rt)
    ∧ CompletesHiLo (.mult rs rt) s fun hi lo =>
        ((hi.toNat * 2 ^ 128 + lo.toNat : Nat) : Int) = ((s.reg rs).toInt * (s.reg rt).toInt) % 2 ^ 256

/-- `multu` leaves in HI:LO the exact product of the UNSIGNED readings, and nothing else. That `multu` is unsigned is the
spec's decision D9 (log 13). -/
def Obligations.MultuEffect : Prop :=
  ∀ (s : State) (rs rt rd : Reg) (shamt : BitVec 5),
    decode (encodeR rs rt rd shamt 0x19) = .ok (.multu rs rt)
    ∧ CompletesHiLo (.multu rs rt) s fun hi lo =>
        hi.toNat * 2 ^ 128 + lo.toNat = (s.reg rs).toNat * (s.reg rt).toNat

/-- `div` by a nonzero divisor leaves the truncated signed quotient in LO and the remainder in HI, each reduced modulo 2^128
(so `-2^127 / -1` wraps), and nothing else. That `div` is signed, and the wrap, are the spec's decision D10 (log 14). -/
def Obligations.DivEffect : Prop :=
  ∀ (s : State) (rs rt rd : Reg) (shamt : BitVec 5),
    decode (encodeR rs rt rd shamt 0x1A) = .ok (.div rs rt)
    ∧ (s.reg rt ≠ 0 → CompletesHiLo (.div rs rt) s fun hi lo =>
        lo = BitVec.ofInt 128 ((s.reg rs).toInt.tdiv (s.reg rt).toInt)
          ∧ hi = BitVec.ofInt 128 ((s.reg rs).toInt.tmod (s.reg rt).toInt))

/-- `divu` by a nonzero divisor leaves the unsigned quotient in LO and the remainder in HI, and nothing else. That `divu` is
unsigned is the spec's decision D10 (log 14). -/
def Obligations.DivuEffect : Prop :=
  ∀ (s : State) (rs rt rd : Reg) (shamt : BitVec 5),
    decode (encodeR rs rt rd shamt 0x1B) = .ok (.divu rs rt)
    ∧ (s.reg rt ≠ 0 → CompletesHiLo (.divu rs rt) s fun hi lo =>
        lo.toNat = (s.reg rs).toNat / (s.reg rt).toNat ∧ hi.toNat = (s.reg rs).toNat % (s.reg rt).toNat)

/-- `div` and `divu` with a zero divisor raise DivideByZeroError with the divisor's register index, and write nothing else; so
does every form with rt = 0. The register index is the spec's decision D23 (log 25), the record D14 (log 6). -/
def Obligations.ZeroDivisorRaises : Prop :=
  ∀ (s : State) (rs rt : Reg), s.reg rt = 0 →
    Raises (.div rs rt) s (.divideByZero rt) ∧ Raises (.divu rs rt) s (.divideByZero rt)
    ∧ Raises (.div rs 0) s (.divideByZero 0) ∧ Raises (.divu rs 0) s (.divideByZero 0)

/-- `mfhi`: every word of its encoding decodes to it, and it writes HI to rd and nothing else. -/
def Obligations.MfhiEffect : Prop :=
  ∀ (s : State) (rs rt rd : Reg) (shamt : BitVec 5),
    decode (encodeR rs rt rd shamt 0x10) = .ok (.mfhi rd) ∧ CompletesWriting (.mfhi rd) s rd s.hi

/-- `mflo`: every word of its encoding decodes to it, and it writes LO to rd and nothing else. -/
def Obligations.MfloEffect : Prop :=
  ∀ (s : State) (rs rt rd : Reg) (shamt : BitVec 5),
    decode (encodeR rs rt rd shamt 0x12) = .ok (.mflo rd) ∧ CompletesWriting (.mflo rd) s rd s.lo

/-- The document's two properties of the multiply and divide results, for every operand pair: the product property read
unsigned for `multu` and signed for `mult`; `q*b + r = a` with the remainder's bound and sign for `divu` and `div`, `div`'s
overflow case wrapping. -/
def Obligations.MultiplyDivideProperties : Prop :=
  ∀ a b : Word,
    (multiplyU a b).1.toNat * 2 ^ 128 + (multiplyU a b).2.toNat = a.toNat * b.toNat
    ∧ ((((multiplyS a b).1.toNat * 2 ^ 128 + (multiplyS a b).2.toNat : Nat) : Int) - a.toInt * b.toInt) % 2 ^ 256 = 0
    ∧ (b ≠ 0 → ∃ q r, divideU a b = some (q, r) ∧ q.toNat * b.toNat + r.toNat = a.toNat ∧ r.toNat < b.toNat)
    ∧ (b ≠ 0 → ∃ q r, divideS a b = some (q, r)
        ∧ (if a.toInt = -2 ^ 127 ∧ b.toInt = -1 then q = a ∧ r = 0
           else q.toInt * b.toInt + r.toInt = a.toInt)
        ∧ (r = 0 ∨ r.toInt.sign = a.toInt.sign) ∧ r.toInt.natAbs < b.toInt.natAbs)
    ∧ divideU a 0 = none ∧ divideS a 0 = none

/-- The Karatsuba recursion ends after at most two levels below the top and gives the exact product. The combining formula
is the spec's general knowledge (G1; log 33). -/
def Obligations.KaratsubaIsExact : Prop :=
  ∀ a b : Word, karatsuba 3 a.toNat b.toNat 128 = some (a.toNat * b.toNat)

/-- The signed product computed from magnitudes is the two's-complement product (the equivalence 40_arithmetic_unit.md R88
describes; that `multiply_s` is signed is D9, log 13). -/
def Obligations.SignedProductFromMagnitudesAgrees : Prop :=
  ∀ a b : Word, splitProduct (signedProductFromMagnitudes a b) = multiplyS a b
    ∧ (multiplyS a b).2 = (multiplyU a b).2

/-- The bit-serial restoring loop gives the quotient and remainder that `divide_u` returns, and fails exactly where it fails.
The loop is the spec's general knowledge (G2; log 33). -/
def Obligations.RestoringDivisionIsExact : Prop :=
  ∀ a b : Word, restoringDivide a.toNat b.toNat = (divideU a b).map fun qr => (qr.1.toNat, qr.2.toNat)

/-! ### Loads, stores and the literal (44_load_store.md) -/

/-- The effective address is the base plus the signed offset, modulo 2^128 (the wrap is D27, log 20). -/
def Obligations.EffectiveAddressWraps : Prop :=
  ∀ (s : State) (rs : Reg) (imm : BitVec 16),
    (((s.effectiveAddress rs imm).toNat : Nat) : Int) = ((s.reg rs).toNat + imm.toInt) % 2 ^ 128

/-- `lw` from storage writes the whole cell at the effective address to rt and nothing else; and every I-type word with opcode
0x23 is an `lw`. -/
def Obligations.LwFromStorage : Prop :=
  ∀ (s : State) (rt rs : Reg) (imm : BitVec 16),
    decode (encodeI 0x23 rs rt imm) = .ok (.lw rt rs imm)
    ∧ (DataStorage s (s.effectiveAddress rs imm) →
        CompletesWriting (.lw rt rs imm) s rt (s.cell (s.effectiveAddress rs imm).toNat))

/-- `lw` from the input port takes one fresh draw and writes it to rt (discarded for `$0`), and nothing else, whatever the draw
is. The draw is the free value of log 5 (D17). -/
def Obligations.LwFromInputPort : Prop :=
  ∀ (s : State) (rt rs : Reg) (imm : BitVec 16),
    DataMmio s (s.effectiveAddress rs imm) → (s.effectiveAddress rs imm).toNat = s.config.inputPort →
    ∃ t, exec (.lw rt rs imm) s = .next t ∧ RegWritten s t rt (Config.inputDraw s.draws) ∧ t.draws = s.draws + 1
      ∧ t.pc = s.pc ∧ t.outLog = s.outLog ∧ SameHiLo s t ∧ SameControl s t ∧ SameStorage s t

/-- `sw` to storage changes the one cell at the effective address and no other, marks it written, and changes nothing else; and
every I-type word with opcode 0x2B is an `sw`. That cells are independent is D1 (log 1); the list of written cells is the model's own field (log 3). -/
def Obligations.SwToStorage : Prop :=
  ∀ (s : State) (rt rs : Reg) (imm : BitVec 16),
    decode (encodeI 0x2B rs rt imm) = .ok (.sw rt rs imm)
    ∧ (DataStorage s (s.effectiveAddress rs imm) →
        ∃ t, exec (.sw rt rs imm) s = .next t
          ∧ t.cell (s.effectiveAddress rs imm).toNat = s.reg rt
          ∧ (∀ a, a ≠ (s.effectiveAddress rs imm).toNat → t.cell a = s.cell a)
          ∧ (∀ a, a ∈ t.written ↔ a ∈ s.written ∨ a = (s.effectiveAddress rs imm).toNat)
          ∧ t.pc = s.pc ∧ SameRegs s t ∧ SameHiLo s t ∧ SameControl s t ∧ SamePorts s t)

/-- `sw` to the output port appends the register to the output log; no cell and nothing else changes (D18, log 22). -/
def Obligations.SwToOutputPort : Prop :=
  ∀ (s : State) (rt rs : Reg) (imm : BitVec 16),
    DataMmio s (s.effectiveAddress rs imm) → (s.effectiveAddress rs imm).toNat = s.config.outputPort →
    ∃ t, exec (.sw rt rs imm) s = .next t ∧ t.outLog = s.outLog ++ [s.reg rt] ∧ t.draws = s.draws
      ∧ t.pc = s.pc ∧ SameRegs s t ∧ SameHiLo s t ∧ SameControl s t ∧ SameStorage s t

/-- Where `lw` and `sw` do not complete: AlignmentError first, then the refusal of an MMIO address that is not their port, then
OutOfBoundsError; each with nothing written. The order is D2 (log 18), the refusals D5 (log 8). -/
def Obligations.LoadStoreStops : Prop :=
  ∀ (s : State) (rt rs : Reg) (imm : BitVec 16) (a : Word), a = s.effectiveAddress rs imm →
    (if a.toNat % 16 ≠ 0 then
      Raises (.lw rt rs imm) s (.alignment a 16) ∧ Raises (.sw rt rs imm) s (.alignment a 16)
    else if s.config.mmioThreshold ≤ a.toNat then
      (a.toNat ≠ s.config.inputPort → exec (.lw rt rs imm) s = .refused (.mmioLoad a))
        ∧ (a.toNat ≠ s.config.outputPort → exec (.sw rt rs imm) s = .refused (.mmioStore a))
    else if s.config.memSize ≤ a.toNat then
      Raises (.lw rt rs imm) s (.outOfBounds a) ∧ Raises (.sw rt rs imm) s (.outOfBounds a)
    else DataStorage s a)

/-- `lis` with a readable literal writes it to rd, widened with zeros or by sign as LIS_EXT says, and moves PC past it; nothing
else changes. That both widenings are open is D8 (log 21). -/
def Obligations.LisEffect : Prop :=
  ∀ (s : State) (rs rt rd : Reg) (shamt : BitVec 5),
    decode (encodeR rs rt rd shamt 0x14) = .ok (.lis rd)
    ∧ (FetchStorage s s.pc →
        ∃ t, exec (.lis rd) s = .next t
          ∧ RegWritten s t rd
              (match s.config.lisExt with
                | .zero => BitVec.ofNat 128 ((s.cell s.pc.toNat).toNat % 2 ^ 32)
                | .sign => BitVec.ofInt 128 ((s.cell s.pc.toNat).extractLsb' 0 32).toInt)
          ∧ t.pc = s.pc + 4 ∧ SameHiLo s t ∧ SameControl s t ∧ SameStorage s t ∧ SamePorts s t)

/-- Where `lis` does not complete: the literal's address is misaligned (possible under direct execute only), in the MMIO range
(refused) or out of bounds; nothing is written. The checks on the literal read are D6 (log 19). -/
def Obligations.LisStops : Prop :=
  ∀ (s : State) (rd : Reg),
    if s.pc.toNat % 4 ≠ 0 then Raises (.lis rd) s (.alignment s.pc 4)
    else if s.config.mmioThreshold ≤ s.pc.toNat then exec (.lis rd) s = .refused (.mmioFetch s.pc)
    else if s.config.memSize ≤ s.pc.toNat then Raises (.lis rd) s (.outOfBounds s.pc)
    else FetchStorage s s.pc

/-- Storing a register with `sw` and loading the same address with `lw` gives the stored value; a load from any other storage
address gives what it gave before the store. That cells are independent is D1 (log 1). -/
def Obligations.StoreThenLoad : Prop :=
  ∀ (s t : State) (rt rs rd rb : Reg) (imm off : BitVec 16),
    DataStorage s (s.effectiveAddress rs imm) → exec (.sw rt rs imm) s = .next t →
    DataStorage s (s.effectiveAddress rb off) →
    CompletesWriting (.lw rd rb off) t rd
      (if s.effectiveAddress rb off = s.effectiveAddress rs imm then s.reg rt
       else s.cell (s.effectiveAddress rb off).toNat)

/-- A store is seen by the next fetch of its cell at once, as the low 32 bits of the stored value; a fetch from any other
address is unaffected. Cells are independent by D1 (log 1). -/
def Obligations.FetchSeesStore : Prop :=
  ∀ (s t : State) (rt rs : Reg) (imm : BitVec 16),
    DataStorage s (s.effectiveAddress rs imm) → exec (.sw rt rs imm) s = .next t →
    t.fetch32 (s.effectiveAddress rs imm) = .ok ((s.reg rt).extractLsb' 0 32)
    ∧ ∀ a, a ≠ s.effectiveAddress rs imm → t.fetch32 a = s.fetch32 a

/-- A misaligned access raises AlignmentError and has no other effect, at every address, the MMIO range among them: the data
accesses of `lw` and `sw`, the literal read of `lis`, the fetch, and the host's own accesses. The record is D14 (log 6), the PC
a fetch error leaves is D12 (log 16), and that a host access returns the error and sets no record is D24 (log 26). -/
def Obligations.MisalignedAccessHasNoOtherEffect : Prop :=
  ∀ (s : State),
    (∀ (rt rs : Reg) (imm : BitVec 16), (s.effectiveAddress rs imm).toNat % 16 ≠ 0 →
      Raises (.lw rt rs imm) s (.alignment (s.effectiveAddress rs imm) 16)
      ∧ Raises (.sw rt rs imm) s (.alignment (s.effectiveAddress rs imm) 16))
    ∧ (s.pc.toNat % 4 ≠ 0 →
      (∀ rd, Raises (.lis rd) s (.alignment s.pc 4))
      ∧ (s.enabled = true → step s = .next { s with fault := some ⟨.alignment s.pc 4, s.pc⟩ }))
    ∧ ∀ a v : Word, a.toNat % 16 ≠ 0 →
      hostCommand (.loadWord a) s = .next (s, .error (.alignment a 16))
      ∧ hostCommand (.storeWord a v) s = .next (s, .error (.alignment a 16))

/-- Addresses are never truncated: with parameters that meet their constraints, an aligned address of 2^32 or more reaches no
storage and no port; `lw` and `sw` are refused there and so is the fetch. The spec's decision D7 (log 20). -/
def Obligations.HighAddressesAreRefused : Prop :=
  ∀ (s : State), s.config.wellFormed = true →
    (∀ (rt rs : Reg) (imm : BitVec 16) (a : Word), a = s.effectiveAddress rs imm → a.toNat % 16 = 0 → 2 ^ 32 ≤ a.toNat →
      exec (.lw rt rs imm) s = .refused (.mmioLoad a) ∧ exec (.sw rt rs imm) s = .refused (.mmioStore a))
    ∧ (s.pc.toNat % 4 = 0 → 2 ^ 32 ≤ s.pc.toNat → s.enabled = true →
      step s = .next { s with refused := true })

/-! ### Branches and jumps (45_control_transfer.md) -/

/-- `beq`: every word of its encoding decodes to it; PC becomes the advanced PC plus four times the signed offset, modulo 2^128,
exactly where all 128 bits of the two registers agree; nothing else changes (the wrap is
D27, log 20). -/
def Obligations.BeqEffect : Prop :=
  ∀ (s : State) (rs rt : Reg) (imm : BitVec 16),
    decode (encodeI 0x04 rs rt imm) = .ok (.beq rs rt imm)
    ∧ CompletesGoing (.beq rs rt imm) s
        (if s.reg rs = s.reg rt then BitVec.ofInt 128 (s.pc.toNat + imm.toInt * 4) else s.pc)

/-- `bne`: every word of its encoding decodes to it; PC becomes the advanced PC plus four times the signed offset, modulo 2^128,
exactly where the two registers differ in any of the 128 bits; nothing else changes (the wrap is
D27, log 20). -/
def Obligations.BneEffect : Prop :=
  ∀ (s : State) (rs rt : Reg) (imm : BitVec 16),
    decode (encodeI 0x05 rs rt imm) = .ok (.bne rs rt imm)
    ∧ CompletesGoing (.bne rs rt imm) s
        (if s.reg rs = s.reg rt then s.pc else BitVec.ofInt 128 (s.pc.toNat + imm.toInt * 4))

/-- `jr`: every word of its encoding decodes to it; all 128 bits of the register become PC; nothing else changes in the execute
stage (the halt of `jr $0` belongs to the cycle: `HaltConvention`). -/
def Obligations.JrEffect : Prop :=
  ∀ (s : State) (rs rt rd : Reg) (shamt : BitVec 5),
    decode (encodeR rs rt rd shamt 0x08) = .ok (.jr rs) ∧ CompletesGoing (.jr rs) s (s.reg rs)

/-- `jalr`: every word of its encoding decodes to it, whatever its rd field; `$31` becomes the advanced PC, and PC the register
read AFTER that write, so `jalr $31` goes on at the next instruction. That order is the spec's decision D11 (log 15). -/
def Obligations.JalrEffect : Prop :=
  ∀ (s : State) (rs rt rd : Reg) (shamt : BitVec 5),
    decode (encodeR rs rt rd shamt 0x09) = .ok (.jalr rs)
    ∧ ∃ t, exec (.jalr rs) s = .next t ∧ RegWritten s t 31 s.pc
        ∧ t.pc = (if rs = 31 then s.pc else s.reg rs)
        ∧ SameHiLo s t ∧ SameControl s t ∧ SameStorage s t ∧ SamePorts s t

/-- From an aligned PC, every cycle but one that runs a `jr` or a `jalr` leaves an aligned PC, whether it completes, faults or is
refused. What PC a fault leaves is D12 (log 16). -/
def Obligations.OnlyJumpsMisalignPc : Prop :=
  ∀ (s t : State), s.pc.toNat % 4 = 0 → step s = .next t →
    (∀ w rs, s.fetch32 s.pc = .ok w → decode w ≠ .ok (.jr rs) ∧ decode w ≠ .ok (.jalr rs)) →
    t.pc.toNat % 4 = 0

/-! ### The cycle (41_core_cycle.md) -/

/-- An enabled step whose fetch reads a word that decodes to `i` is `exec i` at the state with PC advanced, and then: a completed
instruction counts, adds its trace entry and, for `jr $0`, clears `running`; a raised error leaves the raise's state; a refusal
leaves the state from before the cycle, marked. -/
def Obligations.StepRunsDecodedInstruction : Prop :=
  ∀ (s : State) (w : InstrWord) (i : Instr),
    s.enabled = true → s.fetch32 s.pc = .ok w → decode w = .ok i →
    (∀ t, exec i { s with pc := s.pc + 4 } = .next t →
      step s = .next (if t.fault.isSome then t else
        { t with
          instrCount := t.instrCount + 1
          trace := appendTrace t.trace (.step s.pc w)
          running := if i = .jr 0 then false else t.running }))
    ∧ (∀ r, exec i { s with pc := s.pc + 4 } = .refused r → step s = .next { s with refused := true })

/-- A cycle runs exactly where one is enabled (running, no fault recorded, not refused): there the step answers a next state for
every memory content and every register value, and elsewhere it answers none. The run flag's part is D15 (log 7). -/
def Obligations.StepRunsExactlyWhereEnabled : Prop :=
  ∀ s : State, (∃ t, step s = .next t) ↔ (s.running = true ∧ s.fault = none ∧ s.refused = false)

/-- Faults of a cycle: a fetch outside memory and below the threshold, and a word that does not decode, end in one, whatever the
word; and a cycle that records a fault changes only the record and PC. A fetch error leaves PC at A, a decode or execute error at
A + 4 (D12, log 16), and the record (D14, log 6) holds the address A. The checks of a fetch are D6 (log 19). The host's `cycle`
gives the error back (log 36). -/
def Obligations.FaultIsPrecise : Prop :=
  (∀ s : State, s.enabled = true → s.pc.toNat % 4 = 0 → s.config.memSize ≤ s.pc.toNat →
    s.pc.toNat < s.config.mmioThreshold →
    step s = .next { s with fault := some ⟨.outOfBounds s.pc, s.pc⟩ })
  ∧ (∀ (s : State) (w : InstrWord) (d : DecodeError), s.enabled = true → s.fetch32 s.pc = .ok w → decode w = .error d →
    step s = .next { s with pc := s.pc + 4, fault := some ⟨.decode d, s.pc⟩ })
  ∧ ∀ (s t : State), step s = .next t → t.fault ≠ none →
    ∃ e, t = { s with
        fault := some ⟨e, s.pc⟩
        pc := match s.fetch32 s.pc with | .ok _ => s.pc + 4 | .raised _ => s.pc | .refused _ => s.pc }
      ∧ (∀ w, s.fetch32 s.pc = .ok w → ∀ d, decode w = .error d → e = .decode d)
      ∧ (∀ e', s.fetch32 s.pc = .raised e' → e = e')
      ∧ hostCommand .cycle s = .next (t, .error e)

/-- Refusals of a cycle: every fetch in the MMIO range, the two ports among them, is refused; and a cycle that is refused leaves
every piece of state as it was before the cycle, but for the mark (D5, D6; log 8, 19). The host's `cycle` says so (log 36). -/
def Obligations.RefusalLeavesStateAsBefore : Prop :=
  (∀ s : State, s.enabled = true → s.pc.toNat % 4 = 0 → s.config.mmioThreshold ≤ s.pc.toNat →
    step s = .next { s with refused := true })
  ∧ ∀ (s t : State), step s = .next t → t.refused = true →
    t = { s with refused := true } ∧ hostCommand .cycle s = .next (t, .refused)

/-- The commit stage happens where the instruction completed and nowhere else, in a cycle and in a direct execute: the counter
goes up by one and the trace gets `step(A, w)`, a full trace losing its oldest entry; after a fault or a refusal both are
unchanged. What a trace entry holds is D20 (log 24), the direct execute's address PC - 4 is D12 (log 16). -/
def Obligations.CommitHappensExactlyOnCompletion : Prop :=
  (∀ (s t : State), step s = .next t →
    if t.fault = none ∧ t.refused = false then
      ∃ w, s.fetch32 s.pc = .ok w ∧ t.instrCount = s.instrCount + 1
        ∧ t.trace = (if s.trace.length < 100 then s.trace else s.trace.tail) ++ [.step s.pc w]
    else t.instrCount = s.instrCount ∧ t.trace = s.trace)
  ∧ ∀ (s t : State) (w : InstrWord), directExecute s w = .next t →
    if t.fault = none ∧ t.refused = false then
      t.instrCount = s.instrCount + 1
        ∧ t.trace = (if s.trace.length < 100 then s.trace else s.trace.tail) ++ [.step (s.pc - 4) w]
    else t.instrCount = s.instrCount ∧ t.trace = s.trace

/-- `running` changes in a cycle exactly where a `jr` with rs field 0 completes, and PC is then 0 (D16, log 9). And what follows for
runs (log 37): a run starts running; a run is infinite or reaches an end, never both; its end is one state, one number of cycles
and one kind; and a normal end is right after a cycle that fetched `jr $0`, with PC 0. -/
def Obligations.HaltConvention : Prop :=
  (∀ (s t : State), step s = .next t →
    (t.running = false ↔ ∃ w, s.fetch32 s.pc = .ok w ∧ decode w = .ok (.jr 0))
    ∧ (t.running = false → t.pc = 0 ∧ s.EndsAt 1 t .normal))
  ∧ (∀ s : State, s.RunStart → s.running = true)
  ∧ ∀ s : State, s.running = true →
    (s.RunsForever ∨ ∃ k t e, s.EndsAt k t e)
    ∧ (∀ k t e, s.EndsAt k t e → ¬ s.RunsForever)
    ∧ (∀ k t e k' t' e', s.EndsAt k t e → s.EndsAt k' t' e' → k = k' ∧ t = t' ∧ e = e')
    ∧ ∀ k t, s.EndsAt k t .normal →
      t.pc = 0 ∧ ∃ j u w, k = j + 1 ∧ s.afterCycles j = some u ∧ u.fetch32 u.pc = .ok w ∧ decode w = .ok (.jr 0)

/-- Which errors a cycle can record, and when: a DecodeError only for the fetched word; an AlignmentError only for a misaligned PC
or the misaligned effective address of an `lw` or `sw`; an OutOfBoundsError only for the PC, such an effective address or the
literal's address of a `lis`, between memory and the threshold; a DivideByZeroError only from `div` and `divu`, with their
divisor's index (D23, log 25); an InvalidRegisterError never. The checks of a fetch and of a literal read are D6 (log 19). -/
def Obligations.ErrorsOfACycle : Prop :=
  ∀ (s t : State) (f : FaultRecord), step s = .next t → t.fault = some f →
    (∀ k, f.error ≠ .invalidRegister k)
    ∧ (∀ d, f.error = .decode d → ∃ w, s.fetch32 s.pc = .ok w ∧ decode w = .error d)
    ∧ (∀ r, f.error = .divideByZero r →
        ∃ w i, s.fetch32 s.pc = .ok w ∧ decode w = .ok i ∧ (∃ q, i = .div q r ∨ i = .divu q r) ∧ s.reg r = 0)
    ∧ (∀ a n, f.error = .alignment a n → a.toNat % n ≠ 0 ∧
        ((n = 4 ∧ a = s.pc)
        ∨ (n = 16 ∧ ∃ w rt rs imm, s.fetch32 s.pc = .ok w ∧ (decode w = .ok (.lw rt rs imm) ∨ decode w = .ok (.sw rt rs imm))
            ∧ a = s.effectiveAddress rs imm)))
    ∧ (∀ a, f.error = .outOfBounds a → s.config.memSize ≤ a.toNat ∧ a.toNat < s.config.mmioThreshold ∧
        (a = s.pc
        ∨ (∃ w rt rs imm, s.fetch32 s.pc = .ok w ∧ (decode w = .ok (.lw rt rs imm) ∨ decode w = .ok (.sw rt rs imm))
            ∧ a = s.effectiveAddress rs imm)
        ∨ ∃ w rd, s.fetch32 s.pc = .ok w ∧ decode w = .ok (.lis rd) ∧ a = s.pc + 4))

/-- The general register each instruction writes is the one its table row names, and every other instruction writes none. -/
def Obligations.GeneralRegisterWrites : Prop :=
  ∀ (i : Instr) (s t : State), exec i s = .next t → ∀ r, writesReg i ≠ some r → t.reg r = s.reg r

/-- HI and LO: only `mult`, `multu`, `div` and `divu` write them, each writes both (the new values do not depend on the old),
a raised DivideByZeroError writes neither, only `mfhi` reads HI and only `mflo` reads LO. -/
def Obligations.HiLoReadersAndWriters : Prop :=
  ∀ (i : Instr) (s t : State), exec i s = .next t →
    (writesHiLo i = false → t.hi = s.hi ∧ t.lo = s.lo)
    ∧ (writesHiLo i = true → t.fault ≠ s.fault → t.hi = s.hi ∧ t.lo = s.lo)
    ∧ (writesHiLo i = true → (∀ q r, (i = .div q r ∨ i = .divu q r) → s.reg r ≠ 0) →
        ∀ h l, exec i { s with hi := h, lo := l } = .next t)
    ∧ (writesHiLo i = false → readsHi i = false → ∀ h, exec i { s with hi := h } = .next { t with hi := h })
    ∧ (writesHiLo i = false → readsLo i = false → ∀ l, exec i { s with lo := l } = .next { t with lo := l })

/-- `$0` reads zero in every state, and every write to it, by an instruction or by the host, is discarded and raises nothing. -/
def Obligations.ZeroRegisterIsHardWired : Prop :=
  ∀ s : State, s.reg 0 = 0
    ∧ (∀ v, s.writeReg 0 v = s)
    ∧ (∀ v, hostCommand (.writeReg 0 v) s = .next (s, .done))
    ∧ (∀ i t, writesReg i = some 0 → exec i s = .next t → (∀ r, t.reg r = s.reg r))

/-- `executionMode` has no effect on execution: a step under another tag gives the same outcome with that tag. -/
def Obligations.ExecutionModeChangesNothing : Prop :=
  ∀ (s : State) (m : ExecMode),
    step { s with executionMode := m } = mapNext (fun t => { t with executionMode := m }) (step s)

/-- The trace has no effect on execution, nor have the counter, the list of written cells (the model's own field, log 3) and the
output log (D18, log 22): whatever one of them holds, a step ends the same way, in the same state but for that one. -/
def Obligations.ObservationsDoNotAffectExecution : Prop :=
  ∀ s : State,
    (∀ l, mapNext (fun t => { t with trace := [] }) (step { s with trace := l })
        = mapNext (fun t => { t with trace := [] }) (step s))
    ∧ (∀ n, mapNext (fun t => { t with instrCount := 0 }) (step { s with instrCount := n })
        = mapNext (fun t => { t with instrCount := 0 }) (step s))
    ∧ (∀ l, mapNext (fun t => { t with written := [] }) (step { s with written := l })
        = mapNext (fun t => { t with written := [] }) (step s))
    ∧ ∀ l, mapNext (fun t => { t with outLog := [] }) (step { s with outLog := l })
        = mapNext (fun t => { t with outLog := [] }) (step s)

/-! ### The invariant -/

/-- Every step keeps the invariant: `$0` holds zero, memory is canonical, bounded and listed as written, the trace is within its
capacity and agrees with the counter. The list of written cells is the model's own field (log 3). -/
def Obligations.StepKeepsInvariant : Prop :=
  ∀ s t : State, s.Inv → step s = .next t → t.Inv

/-- Every host command keeps the invariant. The commands are the spec's decision D24 (log 26); the list of written cells, which the
invariant speaks of, is the model's own field (log 3). -/
def Obligations.HostCommandsKeepInvariant : Prop :=
  ∀ (c : HostCommand) (s t : State) (r : HostReply), s.Inv → hostCommand c s = .next (t, r) → t.Inv

/-- A constructed core meets the invariant for every choice of parameters that meets its constraints, and so does the reset
state. (The parameters of `State.reset` are the model's choice, log 4; the list of written cells is its own field, log 3.) -/
def Obligations.ConstructionAndResetMeetInvariant : Prop :=
  (∀ c : Config, c.wellFormed = true → (State.construct c).Inv ∧ (State.construct c).resetCore.Inv) ∧ State.reset.Inv

/-! ### Reset and the host (70_reset_and_hazards.md) -/

/-- What the host's `reset` leaves: registers, PC, HI, LO and the counter zero, the trace just the reset marker, no fault, not
refused, Idle; memory, the output log and the mode tag as they were. Values the document does not state are D14, D15, D18 and
D21 (log 12); that the count of draws stays is the model's choice (log 5). -/
def Obligations.ResetCommandEffect : Prop :=
  ∀ s : State, ∃ t, hostCommand .reset s = .next (t, .done)
    ∧ (∀ r, t.reg r = 0) ∧ t.pc = 0 ∧ t.hi = 0 ∧ t.lo = 0 ∧ t.instrCount = 0 ∧ t.trace = [.resetEntry]
    ∧ t.fault = none ∧ t.refused = false ∧ t.running = false
    ∧ SameStorage s t ∧ SamePorts s t ∧ t.executionMode = s.executionMode ∧ t.config = s.config

/-- A recorded fault, and the refusal mark, stop the core until reset or construction: no cycle and no direct execute runs, and
no other command clears them (D14, log 6; D5, log 8). -/
def Obligations.OnlyResetClearsFaultAndRefusal : Prop :=
  ∀ (s : State),
    (s.fault ≠ none ∨ s.refused = true → (∀ t, step s ≠ .next t) ∧ ∀ w t, directExecute s w ≠ .next t)
    ∧ ∀ (c : HostCommand) (t : State) (r : HostReply), hostCommand c s = .next (t, r) →
        c ≠ .reset → c ≠ .construct →
        (s.fault ≠ none → t.fault = s.fault) ∧ (s.refused = true → t.refused = true)

/-- The host's register access: an index 0 to 31 reads and writes the register; any other returns InvalidRegisterError and changes
no state (D24, log 26). -/
def Obligations.HostRegisterAccess : Prop :=
  ∀ (s : State) (k : Int) (v : Word),
    (∀ r : Reg, k = r.val →
      hostCommand (.readReg k) s = .next (s, .value (s.reg r))
      ∧ ∃ t, hostCommand (.writeReg k v) s = .next (t, .done) ∧ RegWritten s t r v ∧ t.pc = s.pc
          ∧ SameHiLo s t ∧ SameControl s t ∧ SameStorage s t ∧ SamePorts s t)
    ∧ (k < 0 ∨ 31 < k →
      hostCommand (.readReg k) s = .next (s, .error (.invalidRegister k))
      ∧ hostCommand (.writeReg k v) s = .next (s, .error (.invalidRegister k)))

/-- The host's memory access goes through the same checks as `lw` and `sw` and has their effect; an error is returned, changes no
state and sets no fault record; a refused access sets the refusal mark (D24, log 26 and 29). The input
port gives the free value of log 5 (D17), the output port keeps what is printed in the output log (D18, log 22). -/
def Obligations.HostMemoryAccess : Prop :=
  ∀ (s : State) (a v : Word),
    (DataStorage s a →
      hostCommand (.loadWord a) s = .next (s, .value (s.cell a.toNat))
      ∧ ∃ t, hostCommand (.storeWord a v) s = .next (t, .done) ∧ hostCommand (.loadWord a) t = .next (t, .value v)
          ∧ (∀ b, b ≠ a.toNat → t.cell b = s.cell b)
          ∧ t.pc = s.pc ∧ SameRegs s t ∧ SameHiLo s t ∧ SameControl s t ∧ SamePorts s t)
    ∧ (a.toNat % 16 ≠ 0 →
      hostCommand (.loadWord a) s = .next (s, .error (.alignment a 16))
      ∧ hostCommand (.storeWord a v) s = .next (s, .error (.alignment a 16)))
    ∧ (a.toNat % 16 = 0 → a.toNat < s.config.mmioThreshold → s.config.memSize ≤ a.toNat →
      hostCommand (.loadWord a) s = .next (s, .error (.outOfBounds a))
      ∧ hostCommand (.storeWord a v) s = .next (s, .error (.outOfBounds a)))
    ∧ (DataMmio s a →
      hostCommand (.loadWord a) s =
        (if a.toNat = s.config.inputPort then .next ({ s with draws := s.draws + 1 }, .value (Config.inputDraw s.draws))
         else .next ({ s with refused := true }, .refused))
      ∧ hostCommand (.storeWord a v) s =
        (if a.toNat = s.config.outputPort then .next ({ s with outLog := s.outLog ++ [v] }, .done)
         else .next ({ s with refused := true }, .refused)))

/-- `loadProgram` of at least one word puts the zero-extended words at consecutive 4-byte addresses from the base and changes no
other cell; with a misaligned base, or a last address at or above MEM_SIZE, it returns an error and writes nothing (D24; log 26
and 27). That an error's address is given modulo 2^128 is the model's choice (log 38). -/
def Obligations.LoadProgramPlacesWords : Prop :=
  ∀ (s : State) (base : Nat) (words : List InstrWord), words ≠ [] →
    if base % 4 ≠ 0 then
      hostCommand (.loadProgram base words) s = .next (s, .error (.alignment (BitVec.ofNat 128 base) 4))
    else if s.config.memSize ≤ base + 4 * (words.length - 1) then
      ∃ a, hostCommand (.loadProgram base words) s = .next (s, .error (.outOfBounds a))
    else
      ∃ t, hostCommand (.loadProgram base words) s = .next (t, .done)
        ∧ (∀ k (h : k < words.length), t.cell (base + 4 * k) = (words[k]).setWidth 128)
        ∧ (∀ a, (∀ k, k < words.length → a ≠ base + 4 * k) → t.cell a = s.cell a)
        ∧ t.pc = s.pc ∧ SameRegs s t ∧ SameHiLo s t ∧ SameControl s t ∧ SamePorts s t

/-- A snapshot restored into any core with the same memory size gives back every component the snapshot shows, the running flag among
them, and leaves the fault record, the refusal mark, the counter, the trace and the output log alone (D24, D25; log 28), and the
model's count of draws (log 5). And what leads from Idle to Running: `start`, and a completed restore of a running core's snapshot,
and no other command, a cycle and a direct execute among them (log 35). -/
def Obligations.RestoreOfSnapshot : Prop :=
  (∀ s u : State, s.Inv → u.config.memSize = s.config.memSize →
    ∃ t, hostCommand (.restore s.snapshot) u = .next (t, .done) ∧ t.snapshot = s.snapshot
      ∧ (∀ a, t.cell a = s.cell a) ∧ SameRegs s t
      ∧ t.fault = u.fault ∧ t.refused = u.refused ∧ t.instrCount = u.instrCount ∧ t.trace = u.trace
      ∧ SamePorts u t ∧ t.config = u.config)
  ∧ ∀ (c : HostCommand) (s t : State) (r : HostReply), hostCommand c s = .next (t, r) → s.running = false →
      (t.running = true ↔ c = .start ∨ ∃ n, c = .restore n ∧ n.running = true ∧ r = .done)

/-- The host's direct execute of a word, whatever `running` is, is the decode, execute and commit stages of the cycle that fetches
it, with PC - 4 as the instruction's address (D12, log 16): what each of its endings leaves; `running` is never changed, so a direct
execute of `jr $0` does not halt (log 9); and, for a word that is not `jr $0`, a direct execute at the advanced PC that is not
refused gives the state that a started core's cycle gives, but for `running` (log 30). -/
def Obligations.DirectExecuteIsTheCyclesStages : Prop :=
  ∀ (s : State) (w : InstrWord), s.fault = none → s.refused = false →
    (∀ d, decode w = .error d → directExecute s w = .next { s with fault := some ⟨.decode d, s.pc - 4⟩ })
    ∧ (∀ i t, decode w = .ok i → exec i s = .next t →
        directExecute s w = .next (if t.fault.isSome then t else
          { t with instrCount := t.instrCount + 1, trace := appendTrace t.trace (.step (s.pc - 4) w) }))
    ∧ (∀ i r, decode w = .ok i → exec i s = .refused r → directExecute s w = .next { s with refused := true })
    ∧ (∀ t, directExecute s w = .next t → t.running = s.running)
    ∧ ∀ t, s.fetch32 s.pc = .ok w → decode w ≠ .ok (.jr 0) → directExecute { s with pc := s.pc + 4 } w = .next t →
        t.refused = false → step { s with running := true } = .next { t with running := true }
end

