-- ==== Sys2Proof/Laws/Encoding.lean ====
section
/-!
SUPPORT. The fields of the two layouts (30_encoding.md R62 to R64): what each field of an assembled word reads as, and that a
word is the layout of its own fields.
-/

namespace Sys2Proof

@[simp] theorem regOfBits_regBits (r : Reg) : regOfBits (regBits r) = r := rfl

@[simp] theorem regBits_regOfBits (b : BitVec 5) : regBits (regOfBits b) = b := rfl

/-- A field concatenated above another, as numbers. -/
theorem toNat_append_add {m n : Nat} (x : BitVec m) (y : BitVec n) :
    (x ++ y).toNat = x.toNat * 2 ^ n + y.toNat := by
  rw [BitVec.toNat_append, ← Nat.shiftLeft_add_eq_or_of_lt y.isLt, Nat.shiftLeft_eq]

section layouts

variable (rs rt rd : Reg) (shamt : BitVec 5) (fn op : BitVec 6) (imm : BitVec 16)

/-- The R-type layout as a number. -/
theorem encodeR_toNat : (encodeR rs rt rd shamt fn).toNat =
    rs.val * 2 ^ 21 + rt.val * 2 ^ 16 + rd.val * 2 ^ 11 + shamt.toNat * 2 ^ 6 + fn.toNat := by
  have h : (encodeR rs rt rd shamt fn).toNat =
      (((((0#6).toNat * 2 ^ 5 + rs.val) * 2 ^ 5 + rt.val) * 2 ^ 5 + rd.val) * 2 ^ 5 + shamt.toNat) * 2 ^ 6 + fn.toNat := by
    unfold encodeR
    iterate 5 rw [toNat_append_add]
    rfl
  rw [h]
  simp only [BitVec.toNat_ofNat]
  omega

/-- The I-type layout as a number. -/
theorem encodeI_toNat : (encodeI op rs rt imm).toNat =
    op.toNat * 2 ^ 26 + rs.val * 2 ^ 21 + rt.val * 2 ^ 16 + imm.toNat := by
  have h : (encodeI op rs rt imm).toNat =
      ((op.toNat * 2 ^ 5 + rs.val) * 2 ^ 5 + rt.val) * 2 ^ 16 + imm.toNat := by
    unfold encodeI
    iterate 3 rw [toNat_append_add]
    rfl
  rw [h]
  omega

@[simp] theorem opcodeField_encodeR : opcodeField (encodeR rs rt rd shamt fn) = 0#6 := by
  apply BitVec.eq_of_toNat_eq
  simp only [opcodeField, BitVec.extractLsb'_toNat, encodeR_toNat, Nat.shiftRight_eq_div_pow]
  simp only [BitVec.toNat_ofNat]
  omega

@[simp] theorem functionField_encodeR : functionField (encodeR rs rt rd shamt fn) = fn := by
  apply BitVec.eq_of_toNat_eq
  simp only [functionField, BitVec.extractLsb'_toNat, encodeR_toNat, Nat.shiftRight_eq_div_pow]
  omega

@[simp] theorem rsField_encodeR : rsField (encodeR rs rt rd shamt fn) = rs := by
  apply Fin.ext
  show ((encodeR rs rt rd shamt fn).extractLsb' 21 5).toNat = rs.val
  simp only [BitVec.extractLsb'_toNat, encodeR_toNat, Nat.shiftRight_eq_div_pow]
  omega

@[simp] theorem rtField_encodeR : rtField (encodeR rs rt rd shamt fn) = rt := by
  apply Fin.ext
  show ((encodeR rs rt rd shamt fn).extractLsb' 16 5).toNat = rt.val
  simp only [BitVec.extractLsb'_toNat, encodeR_toNat, Nat.shiftRight_eq_div_pow]
  omega

@[simp] theorem rdField_encodeR : rdField (encodeR rs rt rd shamt fn) = rd := by
  apply Fin.ext
  show ((encodeR rs rt rd shamt fn).extractLsb' 11 5).toNat = rd.val
  simp only [BitVec.extractLsb'_toNat, encodeR_toNat, Nat.shiftRight_eq_div_pow]
  omega

@[simp] theorem opcodeField_encodeI : opcodeField (encodeI op rs rt imm) = op := by
  apply BitVec.eq_of_toNat_eq
  simp only [opcodeField, BitVec.extractLsb'_toNat, encodeI_toNat, Nat.shiftRight_eq_div_pow]
  omega

@[simp] theorem rsField_encodeI : rsField (encodeI op rs rt imm) = rs := by
  apply Fin.ext
  show ((encodeI op rs rt imm).extractLsb' 21 5).toNat = rs.val
  simp only [BitVec.extractLsb'_toNat, encodeI_toNat, Nat.shiftRight_eq_div_pow]
  omega

@[simp] theorem rtField_encodeI : rtField (encodeI op rs rt imm) = rt := by
  apply Fin.ext
  show ((encodeI op rs rt imm).extractLsb' 16 5).toNat = rt.val
  simp only [BitVec.extractLsb'_toNat, encodeI_toNat, Nat.shiftRight_eq_div_pow]
  omega

@[simp] theorem immField_encodeI : immField (encodeI op rs rt imm) = imm := by
  apply BitVec.eq_of_toNat_eq
  simp only [immField, BitVec.extractLsb'_toNat, encodeI_toNat, Nat.shiftRight_eq_div_pow]
  omega

end layouts

/-- A word with opcode 0 is the R-type layout of its fields. -/
theorem encodeR_fields (w : InstrWord) (h : opcodeField w = 0#6) :
    encodeR (rsField w) (rtField w) (rdField w) (shamtField w) (functionField w) = w := by
  have h0 := congrArg BitVec.toNat h
  apply BitVec.eq_of_toNat_eq
  rw [encodeR_toNat]
  show (w.extractLsb' 21 5).toNat * 2 ^ 21 + (w.extractLsb' 16 5).toNat * 2 ^ 16 + (w.extractLsb' 11 5).toNat * 2 ^ 11
    + (w.extractLsb' 6 5).toNat * 2 ^ 6 + (w.extractLsb' 0 6).toNat = w.toNat
  simp only [opcodeField, BitVec.extractLsb'_toNat, Nat.shiftRight_eq_div_pow, BitVec.toNat_ofNat] at h0 ⊢
  omega

/-- Every word is the I-type layout of its fields. -/
theorem encodeI_fields (w : InstrWord) :
    encodeI (opcodeField w) (rsField w) (rtField w) (immField w) = w := by
  apply BitVec.eq_of_toNat_eq
  rw [encodeI_toNat]
  show (w.extractLsb' 26 6).toNat * 2 ^ 26 + (w.extractLsb' 21 5).toNat * 2 ^ 21 + (w.extractLsb' 16 5).toNat * 2 ^ 16
    + (w.extractLsb' 0 16).toNat = w.toNat
  simp only [BitVec.extractLsb'_toNat, Nat.shiftRight_eq_div_pow]
  omega

/-- Under opcode 0 the decoder reads the function. -/
theorem decode_encodeR (rs rt rd : Reg) (shamt : BitVec 5) (fn : BitVec 6) :
    decode (encodeR rs rt rd shamt fn) = decodeFunction (encodeR rs rt rd shamt fn) := by
  simp [decode]

/-- Under a nonzero opcode the decoder reads the opcode. -/
theorem decode_encodeI (op : BitVec 6) (rs rt : Reg) (imm : BitVec 16) (h : op ≠ 0#6) :
    decode (encodeI op rs rt imm) = decodeOpcode (encodeI op rs rt imm) := by
  simp [decode, h]

end Sys2Proof
end

