-- ==== Sys2Proof/Laws/State.lean ====
section
/-!
SUPPORT. For each named update of the state, one lemma for each field (true by rfl) and one for each of the two reads
`State.reg` and `State.cell` that the update does not touch, so that no proof unfolds a record update.
-/

namespace Sys2Proof.Machine

variable (s : State)

/-! ### writeReg -/

@[simp] theorem State.writeReg_config (r : Reg) (v : Word) : (s.writeReg r v).config = s.config := rfl
@[simp] theorem State.writeReg_regs (r : Reg) (v : Word) : (s.writeReg r v).regs = writeRegFile s.regs r v := rfl
@[simp] theorem State.writeReg_pc (r : Reg) (v : Word) : (s.writeReg r v).pc = s.pc := rfl
@[simp] theorem State.writeReg_hi (r : Reg) (v : Word) : (s.writeReg r v).hi = s.hi := rfl
@[simp] theorem State.writeReg_lo (r : Reg) (v : Word) : (s.writeReg r v).lo = s.lo := rfl
@[simp] theorem State.writeReg_running (r : Reg) (v : Word) : (s.writeReg r v).running = s.running := rfl
@[simp] theorem State.writeReg_executionMode (r : Reg) (v : Word) : (s.writeReg r v).executionMode = s.executionMode := rfl
@[simp] theorem State.writeReg_instrCount (r : Reg) (v : Word) : (s.writeReg r v).instrCount = s.instrCount := rfl
@[simp] theorem State.writeReg_trace (r : Reg) (v : Word) : (s.writeReg r v).trace = s.trace := rfl
@[simp] theorem State.writeReg_fault (r : Reg) (v : Word) : (s.writeReg r v).fault = s.fault := rfl
@[simp] theorem State.writeReg_refused (r : Reg) (v : Word) : (s.writeReg r v).refused = s.refused := rfl
@[simp] theorem State.writeReg_mem (r : Reg) (v : Word) : (s.writeReg r v).mem = s.mem := rfl
@[simp] theorem State.writeReg_written (r : Reg) (v : Word) : (s.writeReg r v).written = s.written := rfl
@[simp] theorem State.writeReg_outLog (r : Reg) (v : Word) : (s.writeReg r v).outLog = s.outLog := rfl
@[simp] theorem State.writeReg_draws (r : Reg) (v : Word) : (s.writeReg r v).draws = s.draws := rfl
@[simp] theorem State.writeReg_cell (r : Reg) (v : Word) (k : Nat) : (s.writeReg r v).cell k = s.cell k := rfl

/-! ### setPc -/

@[simp] theorem State.setPc_config (v : Word) : (s.setPc v).config = s.config := rfl
@[simp] theorem State.setPc_regs (v : Word) : (s.setPc v).regs = s.regs := rfl
@[simp] theorem State.setPc_pc (v : Word) : (s.setPc v).pc = v := rfl
@[simp] theorem State.setPc_hi (v : Word) : (s.setPc v).hi = s.hi := rfl
@[simp] theorem State.setPc_lo (v : Word) : (s.setPc v).lo = s.lo := rfl
@[simp] theorem State.setPc_running (v : Word) : (s.setPc v).running = s.running := rfl
@[simp] theorem State.setPc_executionMode (v : Word) : (s.setPc v).executionMode = s.executionMode := rfl
@[simp] theorem State.setPc_instrCount (v : Word) : (s.setPc v).instrCount = s.instrCount := rfl
@[simp] theorem State.setPc_trace (v : Word) : (s.setPc v).trace = s.trace := rfl
@[simp] theorem State.setPc_fault (v : Word) : (s.setPc v).fault = s.fault := rfl
@[simp] theorem State.setPc_refused (v : Word) : (s.setPc v).refused = s.refused := rfl
@[simp] theorem State.setPc_mem (v : Word) : (s.setPc v).mem = s.mem := rfl
@[simp] theorem State.setPc_written (v : Word) : (s.setPc v).written = s.written := rfl
@[simp] theorem State.setPc_outLog (v : Word) : (s.setPc v).outLog = s.outLog := rfl
@[simp] theorem State.setPc_draws (v : Word) : (s.setPc v).draws = s.draws := rfl
@[simp] theorem State.setPc_reg (v : Word) (i : Reg) : (s.setPc v).reg i = s.reg i := rfl
@[simp] theorem State.setPc_cell (v : Word) (k : Nat) : (s.setPc v).cell k = s.cell k := rfl

/-! ### setHiLo -/

@[simp] theorem State.setHiLo_config (h l : Word) : (s.setHiLo h l).config = s.config := rfl
@[simp] theorem State.setHiLo_regs (h l : Word) : (s.setHiLo h l).regs = s.regs := rfl
@[simp] theorem State.setHiLo_pc (h l : Word) : (s.setHiLo h l).pc = s.pc := rfl
@[simp] theorem State.setHiLo_hi (h l : Word) : (s.setHiLo h l).hi = h := rfl
@[simp] theorem State.setHiLo_lo (h l : Word) : (s.setHiLo h l).lo = l := rfl
@[simp] theorem State.setHiLo_running (h l : Word) : (s.setHiLo h l).running = s.running := rfl
@[simp] theorem State.setHiLo_executionMode (h l : Word) : (s.setHiLo h l).executionMode = s.executionMode := rfl
@[simp] theorem State.setHiLo_instrCount (h l : Word) : (s.setHiLo h l).instrCount = s.instrCount := rfl
@[simp] theorem State.setHiLo_trace (h l : Word) : (s.setHiLo h l).trace = s.trace := rfl
@[simp] theorem State.setHiLo_fault (h l : Word) : (s.setHiLo h l).fault = s.fault := rfl
@[simp] theorem State.setHiLo_refused (h l : Word) : (s.setHiLo h l).refused = s.refused := rfl
@[simp] theorem State.setHiLo_mem (h l : Word) : (s.setHiLo h l).mem = s.mem := rfl
@[simp] theorem State.setHiLo_written (h l : Word) : (s.setHiLo h l).written = s.written := rfl
@[simp] theorem State.setHiLo_outLog (h l : Word) : (s.setHiLo h l).outLog = s.outLog := rfl
@[simp] theorem State.setHiLo_draws (h l : Word) : (s.setHiLo h l).draws = s.draws := rfl
@[simp] theorem State.setHiLo_reg (h l : Word) (i : Reg) : (s.setHiLo h l).reg i = s.reg i := rfl
@[simp] theorem State.setHiLo_cell (h l : Word) (k : Nat) : (s.setHiLo h l).cell k = s.cell k := rfl

/-! ### setRunning -/

@[simp] theorem State.setRunning_config (b : Bool) : (s.setRunning b).config = s.config := rfl
@[simp] theorem State.setRunning_regs (b : Bool) : (s.setRunning b).regs = s.regs := rfl
@[simp] theorem State.setRunning_pc (b : Bool) : (s.setRunning b).pc = s.pc := rfl
@[simp] theorem State.setRunning_hi (b : Bool) : (s.setRunning b).hi = s.hi := rfl
@[simp] theorem State.setRunning_lo (b : Bool) : (s.setRunning b).lo = s.lo := rfl
@[simp] theorem State.setRunning_running (b : Bool) : (s.setRunning b).running = b := rfl
@[simp] theorem State.setRunning_executionMode (b : Bool) : (s.setRunning b).executionMode = s.executionMode := rfl
@[simp] theorem State.setRunning_instrCount (b : Bool) : (s.setRunning b).instrCount = s.instrCount := rfl
@[simp] theorem State.setRunning_trace (b : Bool) : (s.setRunning b).trace = s.trace := rfl
@[simp] theorem State.setRunning_fault (b : Bool) : (s.setRunning b).fault = s.fault := rfl
@[simp] theorem State.setRunning_refused (b : Bool) : (s.setRunning b).refused = s.refused := rfl
@[simp] theorem State.setRunning_mem (b : Bool) : (s.setRunning b).mem = s.mem := rfl
@[simp] theorem State.setRunning_written (b : Bool) : (s.setRunning b).written = s.written := rfl
@[simp] theorem State.setRunning_outLog (b : Bool) : (s.setRunning b).outLog = s.outLog := rfl
@[simp] theorem State.setRunning_draws (b : Bool) : (s.setRunning b).draws = s.draws := rfl
@[simp] theorem State.setRunning_reg (b : Bool) (i : Reg) : (s.setRunning b).reg i = s.reg i := rfl
@[simp] theorem State.setRunning_cell (b : Bool) (k : Nat) : (s.setRunning b).cell k = s.cell k := rfl

/-! ### raiseAt -/

@[simp] theorem State.raiseAt_config (e : Error) (a : Word) : (s.raiseAt e a).config = s.config := rfl
@[simp] theorem State.raiseAt_regs (e : Error) (a : Word) : (s.raiseAt e a).regs = s.regs := rfl
@[simp] theorem State.raiseAt_pc (e : Error) (a : Word) : (s.raiseAt e a).pc = s.pc := rfl
@[simp] theorem State.raiseAt_hi (e : Error) (a : Word) : (s.raiseAt e a).hi = s.hi := rfl
@[simp] theorem State.raiseAt_lo (e : Error) (a : Word) : (s.raiseAt e a).lo = s.lo := rfl
@[simp] theorem State.raiseAt_running (e : Error) (a : Word) : (s.raiseAt e a).running = s.running := rfl
@[simp] theorem State.raiseAt_executionMode (e : Error) (a : Word) : (s.raiseAt e a).executionMode = s.executionMode := rfl
@[simp] theorem State.raiseAt_instrCount (e : Error) (a : Word) : (s.raiseAt e a).instrCount = s.instrCount := rfl
@[simp] theorem State.raiseAt_trace (e : Error) (a : Word) : (s.raiseAt e a).trace = s.trace := rfl
@[simp] theorem State.raiseAt_fault (e : Error) (a : Word) : (s.raiseAt e a).fault = some ⟨e, a⟩ := rfl
@[simp] theorem State.raiseAt_refused (e : Error) (a : Word) : (s.raiseAt e a).refused = s.refused := rfl
@[simp] theorem State.raiseAt_mem (e : Error) (a : Word) : (s.raiseAt e a).mem = s.mem := rfl
@[simp] theorem State.raiseAt_written (e : Error) (a : Word) : (s.raiseAt e a).written = s.written := rfl
@[simp] theorem State.raiseAt_outLog (e : Error) (a : Word) : (s.raiseAt e a).outLog = s.outLog := rfl
@[simp] theorem State.raiseAt_draws (e : Error) (a : Word) : (s.raiseAt e a).draws = s.draws := rfl
@[simp] theorem State.raiseAt_reg (e : Error) (a : Word) (i : Reg) : (s.raiseAt e a).reg i = s.reg i := rfl
@[simp] theorem State.raiseAt_cell (e : Error) (a : Word) (k : Nat) : (s.raiseAt e a).cell k = s.cell k := rfl

/-! ### raise -/

@[simp] theorem State.raise_config (e : Error) : (s.raise e).config = s.config := rfl
@[simp] theorem State.raise_regs (e : Error) : (s.raise e).regs = s.regs := rfl
@[simp] theorem State.raise_pc (e : Error) : (s.raise e).pc = s.pc := rfl
@[simp] theorem State.raise_hi (e : Error) : (s.raise e).hi = s.hi := rfl
@[simp] theorem State.raise_lo (e : Error) : (s.raise e).lo = s.lo := rfl
@[simp] theorem State.raise_running (e : Error) : (s.raise e).running = s.running := rfl
@[simp] theorem State.raise_executionMode (e : Error) : (s.raise e).executionMode = s.executionMode := rfl
@[simp] theorem State.raise_instrCount (e : Error) : (s.raise e).instrCount = s.instrCount := rfl
@[simp] theorem State.raise_trace (e : Error) : (s.raise e).trace = s.trace := rfl
@[simp] theorem State.raise_fault (e : Error) : (s.raise e).fault = some ⟨e, s.instrAddr⟩ := rfl
@[simp] theorem State.raise_refused (e : Error) : (s.raise e).refused = s.refused := rfl
@[simp] theorem State.raise_mem (e : Error) : (s.raise e).mem = s.mem := rfl
@[simp] theorem State.raise_written (e : Error) : (s.raise e).written = s.written := rfl
@[simp] theorem State.raise_outLog (e : Error) : (s.raise e).outLog = s.outLog := rfl
@[simp] theorem State.raise_draws (e : Error) : (s.raise e).draws = s.draws := rfl
@[simp] theorem State.raise_reg (e : Error) (i : Reg) : (s.raise e).reg i = s.reg i := rfl
@[simp] theorem State.raise_cell (e : Error) (k : Nat) : (s.raise e).cell k = s.cell k := rfl

/-! ### markRefused -/

@[simp] theorem State.markRefused_config : (s.markRefused).config = s.config := rfl
@[simp] theorem State.markRefused_regs : (s.markRefused).regs = s.regs := rfl
@[simp] theorem State.markRefused_pc : (s.markRefused).pc = s.pc := rfl
@[simp] theorem State.markRefused_hi : (s.markRefused).hi = s.hi := rfl
@[simp] theorem State.markRefused_lo : (s.markRefused).lo = s.lo := rfl
@[simp] theorem State.markRefused_running : (s.markRefused).running = s.running := rfl
@[simp] theorem State.markRefused_executionMode : (s.markRefused).executionMode = s.executionMode := rfl
@[simp] theorem State.markRefused_instrCount : (s.markRefused).instrCount = s.instrCount := rfl
@[simp] theorem State.markRefused_trace : (s.markRefused).trace = s.trace := rfl
@[simp] theorem State.markRefused_fault : (s.markRefused).fault = s.fault := rfl
@[simp] theorem State.markRefused_refused : (s.markRefused).refused = true := rfl
@[simp] theorem State.markRefused_mem : (s.markRefused).mem = s.mem := rfl
@[simp] theorem State.markRefused_written : (s.markRefused).written = s.written := rfl
@[simp] theorem State.markRefused_outLog : (s.markRefused).outLog = s.outLog := rfl
@[simp] theorem State.markRefused_draws : (s.markRefused).draws = s.draws := rfl
@[simp] theorem State.markRefused_reg (i : Reg) : (s.markRefused).reg i = s.reg i := rfl
@[simp] theorem State.markRefused_cell (k : Nat) : (s.markRefused).cell k = s.cell k := rfl

/-! ### commit -/

@[simp] theorem State.commit_config (a : Word) (w : InstrWord) : (s.commit a w).config = s.config := rfl
@[simp] theorem State.commit_regs (a : Word) (w : InstrWord) : (s.commit a w).regs = s.regs := rfl
@[simp] theorem State.commit_pc (a : Word) (w : InstrWord) : (s.commit a w).pc = s.pc := rfl
@[simp] theorem State.commit_hi (a : Word) (w : InstrWord) : (s.commit a w).hi = s.hi := rfl
@[simp] theorem State.commit_lo (a : Word) (w : InstrWord) : (s.commit a w).lo = s.lo := rfl
@[simp] theorem State.commit_running (a : Word) (w : InstrWord) : (s.commit a w).running = s.running := rfl
@[simp] theorem State.commit_executionMode (a : Word) (w : InstrWord) : (s.commit a w).executionMode = s.executionMode := rfl
@[simp] theorem State.commit_instrCount (a : Word) (w : InstrWord) : (s.commit a w).instrCount = s.instrCount + 1 := rfl
@[simp] theorem State.commit_trace (a : Word) (w : InstrWord) : (s.commit a w).trace = appendTrace s.trace (.step a w) := rfl
@[simp] theorem State.commit_fault (a : Word) (w : InstrWord) : (s.commit a w).fault = s.fault := rfl
@[simp] theorem State.commit_refused (a : Word) (w : InstrWord) : (s.commit a w).refused = s.refused := rfl
@[simp] theorem State.commit_mem (a : Word) (w : InstrWord) : (s.commit a w).mem = s.mem := rfl
@[simp] theorem State.commit_written (a : Word) (w : InstrWord) : (s.commit a w).written = s.written := rfl
@[simp] theorem State.commit_outLog (a : Word) (w : InstrWord) : (s.commit a w).outLog = s.outLog := rfl
@[simp] theorem State.commit_draws (a : Word) (w : InstrWord) : (s.commit a w).draws = s.draws := rfl
@[simp] theorem State.commit_reg (a : Word) (w : InstrWord) (i : Reg) : (s.commit a w).reg i = s.reg i := rfl
@[simp] theorem State.commit_cell (a : Word) (w : InstrWord) (k : Nat) : (s.commit a w).cell k = s.cell k := rfl

/-! ### storeCell -/

@[simp] theorem State.storeCell_config (a : Nat) (v : Word) : (s.storeCell a v).config = s.config := rfl
@[simp] theorem State.storeCell_regs (a : Nat) (v : Word) : (s.storeCell a v).regs = s.regs := rfl
@[simp] theorem State.storeCell_pc (a : Nat) (v : Word) : (s.storeCell a v).pc = s.pc := rfl
@[simp] theorem State.storeCell_hi (a : Nat) (v : Word) : (s.storeCell a v).hi = s.hi := rfl
@[simp] theorem State.storeCell_lo (a : Nat) (v : Word) : (s.storeCell a v).lo = s.lo := rfl
@[simp] theorem State.storeCell_running (a : Nat) (v : Word) : (s.storeCell a v).running = s.running := rfl
@[simp] theorem State.storeCell_executionMode (a : Nat) (v : Word) : (s.storeCell a v).executionMode = s.executionMode := rfl
@[simp] theorem State.storeCell_instrCount (a : Nat) (v : Word) : (s.storeCell a v).instrCount = s.instrCount := rfl
@[simp] theorem State.storeCell_trace (a : Nat) (v : Word) : (s.storeCell a v).trace = s.trace := rfl
@[simp] theorem State.storeCell_fault (a : Nat) (v : Word) : (s.storeCell a v).fault = s.fault := rfl
@[simp] theorem State.storeCell_refused (a : Nat) (v : Word) : (s.storeCell a v).refused = s.refused := rfl
@[simp] theorem State.storeCell_mem (a : Nat) (v : Word) : (s.storeCell a v).mem = s.mem.write a v := rfl
@[simp] theorem State.storeCell_written (a : Nat) (v : Word) : (s.storeCell a v).written = markWritten s.written a := rfl
@[simp] theorem State.storeCell_outLog (a : Nat) (v : Word) : (s.storeCell a v).outLog = s.outLog := rfl
@[simp] theorem State.storeCell_draws (a : Nat) (v : Word) : (s.storeCell a v).draws = s.draws := rfl
@[simp] theorem State.storeCell_reg (a : Nat) (v : Word) (i : Reg) : (s.storeCell a v).reg i = s.reg i := rfl

/-! ### afterDraw -/

@[simp] theorem State.afterDraw_config : (s.afterDraw).config = s.config := rfl
@[simp] theorem State.afterDraw_regs : (s.afterDraw).regs = s.regs := rfl
@[simp] theorem State.afterDraw_pc : (s.afterDraw).pc = s.pc := rfl
@[simp] theorem State.afterDraw_hi : (s.afterDraw).hi = s.hi := rfl
@[simp] theorem State.afterDraw_lo : (s.afterDraw).lo = s.lo := rfl
@[simp] theorem State.afterDraw_running : (s.afterDraw).running = s.running := rfl
@[simp] theorem State.afterDraw_executionMode : (s.afterDraw).executionMode = s.executionMode := rfl
@[simp] theorem State.afterDraw_instrCount : (s.afterDraw).instrCount = s.instrCount := rfl
@[simp] theorem State.afterDraw_trace : (s.afterDraw).trace = s.trace := rfl
@[simp] theorem State.afterDraw_fault : (s.afterDraw).fault = s.fault := rfl
@[simp] theorem State.afterDraw_refused : (s.afterDraw).refused = s.refused := rfl
@[simp] theorem State.afterDraw_mem : (s.afterDraw).mem = s.mem := rfl
@[simp] theorem State.afterDraw_written : (s.afterDraw).written = s.written := rfl
@[simp] theorem State.afterDraw_outLog : (s.afterDraw).outLog = s.outLog := rfl
@[simp] theorem State.afterDraw_draws : (s.afterDraw).draws = s.draws + 1 := rfl
@[simp] theorem State.afterDraw_reg (i : Reg) : (s.afterDraw).reg i = s.reg i := rfl
@[simp] theorem State.afterDraw_cell (k : Nat) : (s.afterDraw).cell k = s.cell k := rfl

/-! ### print -/

@[simp] theorem State.print_config (v : Word) : (s.print v).config = s.config := rfl
@[simp] theorem State.print_regs (v : Word) : (s.print v).regs = s.regs := rfl
@[simp] theorem State.print_pc (v : Word) : (s.print v).pc = s.pc := rfl
@[simp] theorem State.print_hi (v : Word) : (s.print v).hi = s.hi := rfl
@[simp] theorem State.print_lo (v : Word) : (s.print v).lo = s.lo := rfl
@[simp] theorem State.print_running (v : Word) : (s.print v).running = s.running := rfl
@[simp] theorem State.print_executionMode (v : Word) : (s.print v).executionMode = s.executionMode := rfl
@[simp] theorem State.print_instrCount (v : Word) : (s.print v).instrCount = s.instrCount := rfl
@[simp] theorem State.print_trace (v : Word) : (s.print v).trace = s.trace := rfl
@[simp] theorem State.print_fault (v : Word) : (s.print v).fault = s.fault := rfl
@[simp] theorem State.print_refused (v : Word) : (s.print v).refused = s.refused := rfl
@[simp] theorem State.print_mem (v : Word) : (s.print v).mem = s.mem := rfl
@[simp] theorem State.print_written (v : Word) : (s.print v).written = s.written := rfl
@[simp] theorem State.print_outLog (v : Word) : (s.print v).outLog = s.outLog ++ [v] := rfl
@[simp] theorem State.print_draws (v : Word) : (s.print v).draws = s.draws := rfl
@[simp] theorem State.print_reg (v : Word) (i : Reg) : (s.print v).reg i = s.reg i := rfl
@[simp] theorem State.print_cell (v : Word) (k : Nat) : (s.print v).cell k = s.cell k := rfl

/-! ### advancePc -/

@[simp] theorem State.advancePc_config : (s.advancePc).config = s.config := rfl
@[simp] theorem State.advancePc_regs : (s.advancePc).regs = s.regs := rfl
@[simp] theorem State.advancePc_pc : (s.advancePc).pc = addWords s.pc 4 := rfl
@[simp] theorem State.advancePc_hi : (s.advancePc).hi = s.hi := rfl
@[simp] theorem State.advancePc_lo : (s.advancePc).lo = s.lo := rfl
@[simp] theorem State.advancePc_running : (s.advancePc).running = s.running := rfl
@[simp] theorem State.advancePc_executionMode : (s.advancePc).executionMode = s.executionMode := rfl
@[simp] theorem State.advancePc_instrCount : (s.advancePc).instrCount = s.instrCount := rfl
@[simp] theorem State.advancePc_trace : (s.advancePc).trace = s.trace := rfl
@[simp] theorem State.advancePc_fault : (s.advancePc).fault = s.fault := rfl
@[simp] theorem State.advancePc_refused : (s.advancePc).refused = s.refused := rfl
@[simp] theorem State.advancePc_mem : (s.advancePc).mem = s.mem := rfl
@[simp] theorem State.advancePc_written : (s.advancePc).written = s.written := rfl
@[simp] theorem State.advancePc_outLog : (s.advancePc).outLog = s.outLog := rfl
@[simp] theorem State.advancePc_draws : (s.advancePc).draws = s.draws := rfl
@[simp] theorem State.advancePc_reg (i : Reg) : (s.advancePc).reg i = s.reg i := rfl
@[simp] theorem State.advancePc_cell (k : Nat) : (s.advancePc).cell k = s.cell k := rfl

end Sys2Proof.Machine
end

