-- ==== Sys2Proof/Laws/Memory.lean ====
section
/-!
SUPPORT. Storage: reading after a write, and that every memory operation keeps the canonical form and the written set
sorted (20_memory.md R37, R38; log 1, log 3).
-/

namespace Sys2Proof.Machine

/-! ### Reading -/

@[simp] theorem Memory.read_nil (a : Nat) : Memory.read [] a = 0 := rfl

theorem Memory.read_erase (m : Memory) (a b : Nat) :
    (m.erase a).read b = if b = a then 0 else m.read b := by
  induction m with
  | nil => simp [Memory.erase]
  | cons c rest ih =>
    obtain ⟨k, v⟩ := c
    simp only [Memory.erase] at ih ⊢
    by_cases hk : k = a
    · subst hk
      by_cases hb : b = k
      · subst hb
        simpa using ih
      · have : k ≠ b := fun h => hb h.symm
        simpa [hb, Memory.read, this] using ih
    · by_cases hb : k = b
      · subst hb
        simp [hk, Memory.read]
      · simpa [hk, Memory.read, hb] using ih

theorem Memory.read_insert (m : Memory) (a b : Nat) (v : Word) (h : ∀ c ∈ m, c.1 ≠ a) :
    (m.insert a v).read b = if b = a then v else m.read b := by
  induction m with
  | nil =>
    by_cases hb : b = a
    · simp [Memory.insert, Memory.read, hb]
    · have : a ≠ b := fun h => hb h.symm
      simp [Memory.insert, Memory.read, hb, this, unsetCell]
  | cons c rest ih =>
    obtain ⟨k, w⟩ := c
    have hk : k ≠ a := h (k, w) (by simp)
    have ih := ih fun c hc => h c (by simp [hc])
    by_cases hlt : a < k <;> by_cases hb : b = a
    · subst hb
      simp [Memory.insert, hlt, Memory.read]
    · have : a ≠ b := fun h => hb h.symm
      simp [Memory.insert, hlt, Memory.read, hb, this]
    · subst hb
      simpa [Memory.insert, hlt, Memory.read, hk] using ih
    · simp only [hb, if_false] at ih
      simp [Memory.insert, hlt, Memory.read, hb, ih]

theorem Memory.erase_keys (m : Memory) (a : Nat) : ∀ c ∈ m.erase a, c.1 ≠ a := by
  intro c hc
  simpa using (List.mem_filter.mp hc).2

/-- A write is read back, and every other cell reads as before. -/
theorem Memory.read_write (m : Memory) (a b : Nat) (v : Word) :
    (m.write a v).read b = if b = a then v else m.read b := by
  unfold Memory.write
  split
  · rename_i h
    simp [Memory.read_erase, h, unsetCell]
  · rw [Memory.read_insert _ _ _ _ (Memory.erase_keys m a), Memory.read_erase]
    split <;> rfl

/-- A cell that memory does not list reads as zero. -/
theorem Memory.read_of_not_listed (m : Memory) (a : Nat) (h : ∀ c ∈ m, c.1 ≠ a) : m.read a = 0 := by
  induction m with
  | nil => rfl
  | cons c rest ih =>
    obtain ⟨k, v⟩ := c
    have hk : k ≠ a := h (k, v) (by simp)
    simpa [Memory.read, hk] using ih fun c hc => h c (by simp [hc])

/-! ### Which entries a write leaves -/

theorem Memory.mem_erase (m : Memory) (a : Nat) (c : Nat × Word) : c ∈ m.erase a ↔ c ∈ m ∧ c.1 ≠ a := by
  simp [Memory.erase, List.mem_filter]

theorem Memory.mem_insert (m : Memory) (a : Nat) (v : Word) (c : Nat × Word) :
    c ∈ m.insert a v ↔ c = (a, v) ∨ c ∈ m := by
  induction m with
  | nil => simp [Memory.insert]
  | cons d rest ih =>
    obtain ⟨k, w⟩ := d
    simp only [Memory.insert]
    split
    · simp
    · simp only [List.mem_cons, ih]
      tauto

theorem Memory.mem_write (m : Memory) (a : Nat) (v : Word) (c : Nat × Word) (h : c ∈ m.write a v) :
    (c = (a, v) ∧ v ≠ unsetCell) ∨ (c ∈ m ∧ c.1 ≠ a) := by
  unfold Memory.write at h
  split at h
  · exact .inr ((Memory.mem_erase m a c).mp h)
  · rename_i hv
    rcases (Memory.mem_insert _ a v c).mp h with h | h
    · exact .inl ⟨h, hv⟩
    · exact .inr ((Memory.mem_erase m a c).mp h)

/-! ### The canonical form -/

theorem Memory.wf_iff (m : Memory) :
    m.wf = true ↔ (m.map Prod.fst).Pairwise (· < ·) ∧ ∀ c ∈ m, c.2 ≠ unsetCell := by
  simp [Memory.wf]

@[simp] theorem Memory.wf_nil : Memory.wf [] = true := rfl

theorem Memory.insert_rising (m : Memory) (a : Nat) (v : Word) (h : (m.map Prod.fst).Pairwise (· < ·))
    (ha : ∀ c ∈ m, c.1 ≠ a) : ((m.insert a v).map Prod.fst).Pairwise (· < ·) := by
  induction m with
  | nil => simp [Memory.insert]
  | cons c rest ih =>
    obtain ⟨k, w⟩ := c
    have hk : k ≠ a := ha (k, w) (by simp)
    simp only [List.map_cons, List.pairwise_cons, List.mem_map] at h
    simp only [Memory.insert]
    split
    · rename_i hlt
      simp only [List.map_cons, List.pairwise_cons, List.mem_cons, List.mem_map]
      refine ⟨?_, ⟨h.1, h.2⟩⟩
      rintro b (rfl | hb)
      · exact hlt
      · exact lt_trans hlt (h.1 b hb)
    · rename_i hlt
      simp only [List.map_cons, List.pairwise_cons, List.mem_map]
      refine ⟨?_, ih h.2 fun c hc => ha c (by simp [hc])⟩
      rintro b ⟨c, hc, rfl⟩
      rcases (Memory.mem_insert rest a v c).mp hc with rfl | hc
      · show k < a
        omega
      · exact h.1 c.1 ⟨c, hc, rfl⟩

theorem Memory.erase_wf (m : Memory) (a : Nat) (h : m.wf = true) : (m.erase a).wf = true := by
  rw [Memory.wf_iff] at h ⊢
  exact ⟨h.1.sublist (List.filter_sublist.map _), fun c hc => h.2 c ((Memory.mem_erase m a c).mp hc).1⟩

/-- A write keeps the canonical form. -/
theorem Memory.write_wf (m : Memory) (a : Nat) (v : Word) (h : m.wf = true) : (m.write a v).wf = true := by
  have he := Memory.erase_wf m a h
  rw [Memory.wf_iff] at he ⊢
  unfold Memory.write
  split
  · exact he
  · rename_i hv
    refine ⟨Memory.insert_rising _ a v he.1 (Memory.erase_keys m a), fun c hc => ?_⟩
    rcases (Memory.mem_insert _ a v c).mp hc with rfl | hc
    · exact hv
    · exact he.2 c hc

/-- The reset state's memory has the canonical form. -/
theorem State.reset_mem_wf : State.reset.mem.wf = true := rfl

/-! ### The written set -/

theorem mem_markWritten (l : List Nat) (a b : Nat) : b ∈ markWritten l a ↔ b = a ∨ b ∈ l := by
  induction l with
  | nil => simp [markWritten]
  | cons c rest ih =>
    simp only [markWritten]
    split
    · simp
    · split
      · rename_i h
        subst h
        simp
      · simp only [List.mem_cons, ih]
        tauto

theorem markWritten_rising (l : List Nat) (a : Nat) (h : l.Pairwise (· < ·)) :
    (markWritten l a).Pairwise (· < ·) := by
  induction l with
  | nil => simp [markWritten]
  | cons c rest ih =>
    have hc := List.pairwise_cons.mp h
    simp only [markWritten]
    split
    · rename_i hlt
      refine List.pairwise_cons.mpr ⟨fun b hb => ?_, h⟩
      rcases List.mem_cons.mp hb with rfl | hb
      · exact hlt
      · exact lt_trans hlt (hc.1 b hb)
    · split
      · exact h
      · rename_i hlt hne
        refine List.pairwise_cons.mpr ⟨fun b hb => ?_, ih hc.2⟩
        rcases (mem_markWritten rest a b).mp hb with rfl | hb
        · omega
        · exact hc.1 b hb

/-! ### Cells of a state -/

theorem State.storeCell_cell (s : State) (a b : Nat) (v : Word) :
    (s.storeCell a v).cell b = if b = a then v else s.cell b :=
  Memory.read_write s.mem a b v

end Sys2Proof.Machine
end

