-- ==== Sys2Proof/Laws/Ops.lean ====
section
/-!
SUPPORT. What the shared operations can do, said once each: registers, the controller's classification, the three access
primitives, how an execute stage ends, and the cycle.
-/

namespace Sys2Proof.Machine

/-! ### Registers (10_state.md R11) -/

@[simp] theorem State.reg_zero (s : State) : s.reg 0 = 0 := rfl

theorem State.writeReg_reg (s : State) (r i : Reg) (v : Word) :
    (s.writeReg r v).reg i = if i = r ∧ i ≠ 0 then v else s.reg i := by
  by_cases hi : i = 0
  · simp [hi]
  · by_cases hr : r = 0
    · subst hr
      simp [State.reg, State.writeReg, writeRegFile, hi]
    · by_cases h : i = r
      · subst h
        simp [State.reg, State.writeReg, writeRegFile, hi]
      · have : (r : Nat) ≠ i := fun e => h (Fin.ext e.symm)
        simp [State.reg, State.writeReg, writeRegFile, hi, hr, h, Vector.getElem_set_ne, this]

@[simp] theorem State.writeReg_zero (s : State) (v : Word) : s.writeReg 0 v = s := rfl

theorem writeRegFile_slot_zero (regs : Vector Word 32) (r : Reg) (v : Word) :
    (writeRegFile regs r v)[0] = regs[0] := by
  unfold writeRegFile
  split
  · rfl
  · rename_i h
    have : (r : Nat) ≠ 0 := fun e => h (Fin.ext e)
    simp [Vector.getElem_set_ne, this]

/-! ### The memory controller (20_memory.md R42) -/

theorem classify_eq_misaligned {c : Config} {a : Word} {k : AccessKind} :
    classify c a k = .misaligned ↔ a.toNat % k.align ≠ 0 := by
  unfold classify
  split_ifs <;> simp_all

theorem classify_eq_mmio {c : Config} {a : Word} {k : AccessKind} :
    classify c a k = .mmio ↔ a.toNat % k.align = 0 ∧ c.mmioThreshold ≤ a.toNat := by
  unfold classify
  split_ifs <;> simp_all

theorem classify_eq_outOfBounds {c : Config} {a : Word} {k : AccessKind} :
    classify c a k = .outOfBounds ↔
      a.toNat % k.align = 0 ∧ a.toNat < c.mmioThreshold ∧ c.memSize ≤ a.toNat := by
  unfold classify
  split_ifs <;> simp_all

theorem classify_eq_storage {c : Config} {a : Word} {k : AccessKind} :
    classify c a k = .storage ↔
      a.toNat % k.align = 0 ∧ a.toNat < c.mmioThreshold ∧ a.toNat < c.memSize := by
  unfold classify
  split_ifs <;> simp_all

/-- Everything a data read can do (R45). -/
theorem State.memRead_cases (s : State) (a : Word) :
    (classify s.config a .data = .misaligned ∧ s.memRead a = .raised (.alignment a 16))
    ∨ (classify s.config a .data = .mmio ∧ a.toNat = s.config.inputPort
        ∧ s.memRead a = .ok (Config.inputDraw s.draws, s.afterDraw))
    ∨ (classify s.config a .data = .mmio ∧ a.toNat ≠ s.config.inputPort ∧ s.memRead a = .refused (.mmioLoad a))
    ∨ (classify s.config a .data = .outOfBounds ∧ s.memRead a = .raised (.outOfBounds a))
    ∨ (classify s.config a .data = .storage ∧ s.memRead a = .ok (s.cell a.toNat, s)) := by
  unfold State.memRead
  cases h : classify s.config a .data
  · exact .inl ⟨rfl, rfl⟩
  · by_cases hp : a.toNat = s.config.inputPort
    · exact .inr (.inl ⟨rfl, hp, by simp [hp, State.nextDraw]⟩)
    · exact .inr (.inr (.inl ⟨rfl, hp, by simp [hp]⟩))
  · exact .inr (.inr (.inr (.inl ⟨rfl, rfl⟩)))
  · exact .inr (.inr (.inr (.inr ⟨rfl, rfl⟩)))

/-- Everything a data write can do (R46). -/
theorem State.memWrite_cases (s : State) (a v : Word) :
    (classify s.config a .data = .misaligned ∧ s.memWrite a v = .raised (.alignment a 16))
    ∨ (classify s.config a .data = .mmio ∧ a.toNat = s.config.outputPort ∧ s.memWrite a v = .ok (s.print v))
    ∨ (classify s.config a .data = .mmio ∧ a.toNat ≠ s.config.outputPort
        ∧ s.memWrite a v = .refused (.mmioStore a))
    ∨ (classify s.config a .data = .outOfBounds ∧ s.memWrite a v = .raised (.outOfBounds a))
    ∨ (classify s.config a .data = .storage ∧ s.memWrite a v = .ok (s.storeCell a.toNat v)) := by
  unfold State.memWrite
  cases h : classify s.config a .data
  · exact .inl ⟨rfl, rfl⟩
  · by_cases hp : a.toNat = s.config.outputPort
    · exact .inr (.inl ⟨rfl, hp, by simp [hp]⟩)
    · exact .inr (.inr (.inl ⟨rfl, hp, by simp [hp]⟩))
  · exact .inr (.inr (.inr (.inl ⟨rfl, rfl⟩)))
  · exact .inr (.inr (.inr (.inr ⟨rfl, rfl⟩)))

/-- Everything a 32-bit read can do (R50). -/
theorem State.fetch32_cases (s : State) (a : Word) :
    (classify s.config a .fetch = .misaligned ∧ s.fetch32 a = .raised (.alignment a 4))
    ∨ (classify s.config a .fetch = .mmio ∧ s.fetch32 a = .refused (.mmioFetch a))
    ∨ (classify s.config a .fetch = .outOfBounds ∧ s.fetch32 a = .raised (.outOfBounds a))
    ∨ (classify s.config a .fetch = .storage ∧ s.fetch32 a = .ok ((s.cell a.toNat).extractLsb' 0 32)) := by
  unfold State.fetch32
  cases h : classify s.config a .fetch <;> simp [AccessKind.align]

/-- A 32-bit read depends on the parameters and the cells only. -/
theorem State.fetch32_congr {s t : State} (a : Word) (hc : t.config = s.config)
    (hm : t.cell a.toNat = s.cell a.toNat) : t.fetch32 a = s.fetch32 a := by
  unfold State.fetch32
  rw [hc, hm]

/-! ### How an execute stage ends -/

/-- What an access answers when the execute stage gives a next state: it went on, or it took the raised error. -/
theorem Access.elim_next {α : Type} {x : Access α} {s t : State} {k : α → Host.Outcome State Fault Refusal}
    (h : x.elim s k = .next t) :
    (∃ a, x = .ok a ∧ k a = .next t) ∨ (∃ e, x = .raised e ∧ t = s.raise e) := by
  cases x with
  | ok a => exact .inl ⟨a, rfl, h⟩
  | raised e => exact .inr ⟨e, rfl, by simpa [Access.elim] using h.symm⟩
  | refused r => simp [Access.elim] at h

/-- What the end of a divide answers (43_multiply_divide.md R109, R110). -/
theorem State.finishDivide_next {s t : State} {rt : Reg} {qr : Option (Word × Word)}
    (h : s.finishDivide rt qr = .next t) :
    (qr = none ∧ t = s.raise (.divideByZero rt)) ∨ (∃ q r, qr = some (q, r) ∧ t = s.setHiLo r q) := by
  cases qr with
  | none => exact .inl ⟨rfl, by simpa [State.finishDivide] using h.symm⟩
  | some p => exact .inr ⟨p.1, p.2, rfl, by simpa [State.finishDivide] using h.symm⟩

theorem divideU_eq_none {a b : Word} : divideU a b = none ↔ b = 0 := by
  unfold divideU
  split <;> simp_all

theorem divideS_eq_none {a b : Word} : divideS a b = none ↔ b = 0 := by
  unfold divideS
  split <;> simp_all


end Sys2Proof.Machine
end

