-- ==== Sys2Proof/Laws/Exec.lean ====
section
/-!
SUPPORT. What an execute stage and a cycle can do, said once: the shapes of the state an instruction leaves, and the
inversion of a cycle that gives a next state. Invariants and whole-machine rules are derived from these.
-/

namespace Sys2Proof.Machine

/-- The shapes of the state `t` that the execute stage of `i` leaves from `s`. -/
inductive ExecShape (i : Instr) (s : State) : State → Prop where
  /-- An error was raised. -/
  | raised (e : Error) (he : ∀ k, e ≠ .invalidRegister k) : ExecShape i s (s.raise e)
  /-- A general register was written. -/
  | wroteReg (r : Reg) (v : Word) (hr : writesReg i = some r) (hh : writesHiLo i = false) :
      ExecShape i s (s.writeReg r v)
  /-- A general register was written from an input-port draw. -/
  | wroteDraw (r : Reg) (v : Word) (hr : writesReg i = some r) (hh : writesHiLo i = false) :
      ExecShape i s (s.afterDraw.writeReg r v)
  /-- A general register and PC were written. -/
  | wroteRegPc (r : Reg) (v p : Word) (hr : writesReg i = some r) (hh : writesHiLo i = false) :
      ExecShape i s ((s.writeReg r v).setPc p)
  /-- HI and LO were written. -/
  | wroteHiLo (h l : Word) (hh : writesHiLo i = true) : ExecShape i s (s.setHiLo h l)
  /-- A cell below MEM_SIZE was stored. -/
  | stored (a : Nat) (v : Word) (ha : a < s.config.memSize) (hh : writesHiLo i = false) :
      ExecShape i s (s.storeCell a v)
  /-- A value was printed. -/
  | printed (v : Word) (hh : writesHiLo i = false) : ExecShape i s (s.print v)
  /-- PC was written. -/
  | went (p : Word) (hh : writesHiLo i = false) : ExecShape i s (s.setPc p)
  /-- Nothing was written (a branch not taken). -/
  | stayed (hh : writesHiLo i = false) : ExecShape i s s

/-- Every execute stage that gives a next state leaves one of those shapes. -/
theorem exec_shape {i : Instr} {s t : State} (h : exec i s = .next t) : ExecShape i s t := by
  cases i with
  | add rd rs rt => cases h; exact .wroteReg rd _ rfl rfl
  | sub rd rs rt => cases h; exact .wroteReg rd _ rfl rfl
  | slt rd rs rt => cases h; exact .wroteReg rd _ rfl rfl
  | sltu rd rs rt => cases h; exact .wroteReg rd _ rfl rfl
  | mult rs rt => cases h; exact .wroteHiLo _ _ rfl
  | multu rs rt => cases h; exact .wroteHiLo _ _ rfl
  | div rs rt =>
    rcases State.finishDivide_next h with ⟨-, rfl⟩ | ⟨q, r, -, rfl⟩
    · exact .raised _ (by simp)
    · exact .wroteHiLo _ _ rfl
  | divu rs rt =>
    rcases State.finishDivide_next h with ⟨-, rfl⟩ | ⟨q, r, -, rfl⟩
    · exact .raised _ (by simp)
    · exact .wroteHiLo _ _ rfl
  | mfhi rd => cases h; exact .wroteReg rd _ rfl rfl
  | mflo rd => cases h; exact .wroteReg rd _ rfl rfl
  | lis rd =>
    rcases Access.elim_next h with ⟨w, -, hk⟩ | ⟨e, he, rfl⟩
    · cases hk; exact .wroteRegPc rd _ _ rfl rfl
    · refine .raised e fun k hk => ?_
      subst hk
      rcases s.fetch32_cases s.pc with h | h | h | h <;> simp [h.2] at he
  | jr rs => cases h; exact .went _ rfl
  | jalr rs => cases h; exact .wroteRegPc 31 _ _ rfl rfl
  | lw rt rs imm =>
    rcases Access.elim_next h with ⟨⟨v, u⟩, hv, hk⟩ | ⟨e, he, rfl⟩
    · cases hk
      rcases s.memRead_cases (s.effectiveAddress rs imm) with h | h | h | h | h
      · simp [h.2] at hv
      · simp only [h.2.2, Access.ok.injEq, Prod.mk.injEq] at hv
        rw [← hv.2]
        exact .wroteDraw rt _ rfl rfl
      · simp [h.2.2] at hv
      · simp [h.2] at hv
      · simp only [h.2, Access.ok.injEq, Prod.mk.injEq] at hv
        rw [← hv.2]
        exact .wroteReg rt _ rfl rfl
    · refine .raised e fun k hk => ?_
      subst hk
      rcases s.memRead_cases (s.effectiveAddress rs imm) with h | h | h | h | h <;> simp [h.2] at he
  | sw rt rs imm =>
    rcases Access.elim_next h with ⟨u, hu, hk⟩ | ⟨e, he, rfl⟩
    · cases hk
      rcases s.memWrite_cases (s.effectiveAddress rs imm) (s.reg rt) with h | h | h | h | h
      · simp [h.2] at hu
      · simp only [h.2.2, Access.ok.injEq] at hu
        rw [← hu]
        exact .printed _ rfl
      · simp [h.2.2] at hu
      · simp [h.2] at hu
      · simp only [h.2, Access.ok.injEq] at hu
        rw [← hu]
        exact .stored _ _ (classify_eq_storage.mp h.1).2.2 rfl
    · refine .raised e fun k hk => ?_
      subst hk
      rcases s.memWrite_cases (s.effectiveAddress rs imm) (s.reg rt) with h | h | h | h | h <;>
        simp [h.2] at he
  | beq rs rt imm =>
    cases h
    split
    · exact .went _ rfl
    · exact .stayed rfl
  | bne rs rt imm =>
    cases h
    split
    · exact .went _ rfl
    · exact .stayed rfl

/-- No execute stage ends in a fault outcome: errors are next states (log 6). -/
theorem exec_ne_fault (i : Instr) (s : State) (f : Fault) : exec i s ≠ .fault f := by
  intro h
  cases i with
  | lis rd =>
    simp only [exec, execLis, Access.elim] at h
    split at h <;> simp at h
  | lw rt rs imm =>
    simp only [exec, execLw, Access.elim] at h
    split at h <;> simp at h
  | sw rt rs imm =>
    simp only [exec, execSw, Access.elim] at h
    split at h <;> simp at h
  | div rs rt =>
    simp only [exec, execDiv, State.finishDivide] at h
    split at h <;> simp at h
  | divu rs rt =>
    simp only [exec, execDivu, State.finishDivide] at h
    split at h <;> simp at h
  | add | sub | slt | sltu | mult | multu | mfhi | mflo | jr | jalr | beq | bne =>
    cases h

/-- An execute stage either leaves the fault record as it was or raises an error. -/
theorem exec_fault {i : Instr} {s t : State} (h : exec i s = .next t) :
    t.fault = s.fault ∨ ∃ e, t = s.raise e := by
  cases exec_shape h with
  | raised e _ => exact .inr ⟨e, rfl⟩
  | _ => exact .inl rfl

/-- An execute stage changes neither the parameters nor the run flag nor the refusal mark nor the counter nor the trace. -/
theorem exec_control {i : Instr} {s t : State} (h : exec i s = .next t) :
    t.config = s.config ∧ t.running = s.running ∧ t.executionMode = s.executionMode
      ∧ t.refused = s.refused ∧ t.instrCount = s.instrCount ∧ t.trace = s.trace := by
  cases exec_shape h <;> exact ⟨rfl, rfl, rfl, rfl, rfl, rfl⟩

/-! ### The cycle -/

/-- PC minus 4 of the advanced PC is the fetch address again. -/
@[simp] theorem State.advancePc_instrAddr (s : State) : s.advancePc.instrAddr = s.pc := by
  simp [State.instrAddr, addWords]

theorem State.enabled_iff (s : State) :
    s.enabled = true ↔ s.running = true ∧ s.fault = none ∧ s.refused = false := by
  simp [State.enabled, and_assoc]

/-- The parts of a halted state but `running` are as they were. -/
theorem haltConvention_eq (who : Caller) (i : Instr) (s : State) :
    haltConvention who i s = s ∨ (haltConvention who i s = s.setRunning false ∧ who = .cycle ∧ isHalt i = true) := by
  unfold haltConvention
  split
  · rename_i h
    exact .inr ⟨rfl, h.1, h.2⟩
  · exact .inl rfl

/-- The ways a cycle can give a next state. -/
inductive CycleShape (s : State) : State → Prop where
  /-- The fetch stage raised an error. -/
  | fetchRaised (e : Error) (hf : s.fetch32 s.pc = .raised e) : CycleShape s (s.raiseAt e s.pc)
  /-- A stage was refused. -/
  | refused : CycleShape s s.markRefused
  /-- The decode stage raised. -/
  | decodeRaised (w : InstrWord) (d : DecodeError) (hf : s.fetch32 s.pc = .ok w) (hd : decode w = .error d) :
      CycleShape s (s.advancePc.raise (.decode d))
  /-- The execute stage raised. -/
  | execRaised (w : InstrWord) (i : Instr) (e : Error) (hf : s.fetch32 s.pc = .ok w) (hd : decode w = .ok i)
      (hx : exec i s.advancePc = .next (s.advancePc.raise e)) : CycleShape s (s.advancePc.raise e)
  /-- The instruction completed. -/
  | completed (w : InstrWord) (i : Instr) (u : State) (hf : s.fetch32 s.pc = .ok w) (hd : decode w = .ok i)
      (hx : exec i s.advancePc = .next u) (hu : u.fault = none) :
      CycleShape s (haltConvention .cycle i (u.commit s.pc w))

/-- A cycle that gives a next state was enabled and has one of those shapes. -/
theorem step_shape {s t : State} (h : step s = .next t) : s.enabled = true ∧ CycleShape s t := by
  unfold step cycle at h
  split at h
  · simp at h
  rename_i hfault
  split at h
  · simp at h
  rename_i href
  split at h
  · simp at h
  rename_i hrun
  have hnone : s.fault = none := by simpa using hfault
  refine ⟨by simp_all [State.enabled], ?_⟩
  split at h
  · rename_i e hf
    cases h
    exact .fetchRaised e hf
  · cases h
    exact .refused
  · rename_i w hf
    unfold runWord at h
    split at h
    · rename_i d hd
      cases h
      exact .decodeRaised w d hf hd
    · rename_i i hd
      cases hx : exec i s.advancePc with
      | fault f => exact absurd hx (exec_ne_fault i _ f)
      | refused r =>
        rw [hx] at h
        cases h
        exact .refused
      | next u =>
        rw [hx] at h
        simp only [finishInstr, State.advancePc_instrAddr, Host.Outcome.next.injEq] at h
        rcases exec_fault hx with hu | ⟨e, rfl⟩
        · have hu' : u.fault = none := by rw [hu]; exact hnone
          rw [if_neg (by simp [hu'])] at h
          exact h ▸ .completed w i u hf hd hx hu'
        · rw [if_pos (by simp)] at h
          exact h ▸ .execRaised w i e hf hd hx

end Sys2Proof.Machine
end

