-- ==== Sys2Proof/Laws/Host.lean ====
section
/-!
SUPPORT. What the host's loader and `restore` do (70_reset_and_hazards.md R153, R154), said once.
-/

namespace Sys2Proof.Machine

/-! ### The fields `restored` leaves and sets -/

@[simp] theorem State.restored_config (s : State) (n : Snapshot) : (s.restored n).config = s.config := rfl
@[simp] theorem State.restored_pc (s : State) (n : Snapshot) : (s.restored n).pc = n.pc := rfl
@[simp] theorem State.restored_hi (s : State) (n : Snapshot) : (s.restored n).hi = n.hi := rfl
@[simp] theorem State.restored_lo (s : State) (n : Snapshot) : (s.restored n).lo = n.lo := rfl
@[simp] theorem State.restored_running (s : State) (n : Snapshot) : (s.restored n).running = n.running := rfl
@[simp] theorem State.restored_executionMode (s : State) (n : Snapshot) :
    (s.restored n).executionMode = n.executionMode := rfl
@[simp] theorem State.restored_instrCount (s : State) (n : Snapshot) :
    (s.restored n).instrCount = s.instrCount := rfl
@[simp] theorem State.restored_trace (s : State) (n : Snapshot) : (s.restored n).trace = s.trace := rfl
@[simp] theorem State.restored_fault (s : State) (n : Snapshot) : (s.restored n).fault = s.fault := rfl
@[simp] theorem State.restored_refused (s : State) (n : Snapshot) : (s.restored n).refused = s.refused := rfl
@[simp] theorem State.restored_outLog (s : State) (n : Snapshot) : (s.restored n).outLog = s.outLog := rfl
@[simp] theorem State.restored_draws (s : State) (n : Snapshot) : (s.restored n).draws = s.draws := rfl

/-- A restored register other than `$0` reads as the snapshot's. -/
theorem State.restored_reg (s : State) (n : Snapshot) (r : Reg) (hr : r ≠ 0) :
    (s.restored n).reg r = n.registers[r.val] := by
  have hne : ¬ (0 = r.val) := fun e => hr (Fin.ext e.symm)
  unfold State.reg
  rw [if_neg hr]
  exact Vector.getElem_set_ne (by omega) _ hne

/-! ### Writing a list of cells -/

/-- Reading after the cells of a list of addresses, with values by `f`, are written one after another. -/
theorem Memory.read_foldl_write (f : Nat → Word) (l : List Nat) : ∀ (m : Memory) (a : Nat),
    Memory.read ((l.map fun b => (b, f b)).foldl (fun m c => m.write c.1 c.2) m) a
      = if a ∈ l then f a else m.read a := by
  induction l with
  | nil => intro m a; simp
  | cons x rest ih =>
    intro m a
    simp only [List.map_cons, List.foldl_cons]
    rw [ih, Memory.read_write]
    by_cases h : a ∈ rest
    · simp [h]
    · by_cases h2 : a = x
      · simp [h2]
      · simp [h, h2]

/-- An address above every listed one goes to the end. -/
theorem markWritten_last (l : List Nat) (a : Nat) (h : ∀ b ∈ l, b < a) : markWritten l a = l ++ [a] := by
  induction l with
  | nil => rfl
  | cons b rest ih =>
    have hb := h b (by simp)
    simp only [markWritten, List.cons_append]
    rw [if_neg (by omega), if_neg (by omega), ih fun c hc => h c (by simp [hc])]

/-- Marking rising addresses one after another lists them in order. -/
theorem foldl_markWritten_rising (f : Nat → Word) (l : List Nat) : ∀ ws : List Nat,
    (ws ++ l).Pairwise (· < ·) →
      (l.map fun b => (b, f b)).foldl (fun l c => markWritten l c.1) ws = ws ++ l := by
  induction l with
  | nil => intro ws _; simp
  | cons x rest ih =>
    intro ws h
    simp only [List.map_cons, List.foldl_cons]
    rw [markWritten_last ws x fun b hb => (List.pairwise_append.mp h).2.2 b hb x (by simp), ih _ (by simpa using h)]
    simp

/-- Writing listed cells below `n` keeps the canonical form, the listing of written cells, its order and its bound. -/
theorem foldl_write_wf (l : List (Nat × Word)) : ∀ (m : Memory) (ws : List Nat) (n : Nat),
    m.wf = true → (∀ c ∈ m, c.1 ∈ ws) → ws.Pairwise (· < ·) → (∀ a ∈ ws, a < n) → (∀ c ∈ l, c.1 < n) →
      (l.foldl (fun m c => m.write c.1 c.2) m).wf = true
      ∧ (∀ c ∈ l.foldl (fun m c => m.write c.1 c.2) m, c.1 ∈ l.foldl (fun l c => markWritten l c.1) ws)
      ∧ (l.foldl (fun l c => markWritten l c.1) ws).Pairwise (· < ·)
      ∧ ∀ a ∈ l.foldl (fun l c => markWritten l c.1) ws, a < n := by
  induction l with
  | nil => intro m ws n hm hl hr hb _; exact ⟨hm, hl, hr, hb⟩
  | cons x rest ih =>
    intro m ws n hm hl hr hb hx
    refine ih _ _ _ (Memory.write_wf _ _ _ hm) ?_ (markWritten_rising _ _ hr) ?_ fun c hc => hx c (by simp [hc])
    · intro c hc
      apply (mem_markWritten _ _ _).mpr
      rcases Memory.mem_write _ _ _ _ hc with ⟨rfl, _⟩ | ⟨h1, _⟩
      · exact .inl rfl
      · exact .inr (hl c h1)
    · intro y hy
      rcases (mem_markWritten _ _ _).mp hy with rfl | hy
      · exact hx x (by simp)
      · exact hb y hy

/-! ### The loader -/

/-- Placing words changes exactly their cells. -/
theorem State.placeWords_cell (ws : List InstrWord) : ∀ (s : State) (base : Nat),
    (∀ k (h : k < ws.length), (s.placeWords base ws).cell (base + 4 * k) = zeroExtend32 ws[k])
    ∧ ∀ a, (∀ k, k < ws.length → a ≠ base + 4 * k) → (s.placeWords base ws).cell a = s.cell a := by
  induction ws with
  | nil => intro s b; exact ⟨by simp, fun _ _ => rfl⟩
  | cons w rest ih =>
    intro s b
    obtain ⟨h1, h2⟩ := ih (s.placeWord b w) (b + 4)
    refine ⟨?_, ?_⟩
    · intro k hk
      cases k with
      | zero =>
        show (State.placeWords _ _ rest).cell _ = _
        rw [h2 (b + 4 * 0) (by intro k hk; omega)]
        show (s.storeCell _ _).cell _ = _
        rw [State.storeCell_cell, if_pos (by omega)]
        rfl
      | succ k =>
        have := h1 k (by simpa using hk)
        show (State.placeWords _ _ rest).cell _ = _
        rw [show b + 4 * (k + 1) = b + 4 + 4 * k by omega, this]
        rfl
    · intro a ha
      show (State.placeWords _ _ rest).cell _ = _
      rw [h2 a (by intro k hk; have := ha (k + 1) (by simp; omega); omega)]
      show (s.storeCell _ _).cell _ = _
      rw [State.storeCell_cell, if_neg (by have := ha 0 (by simp); omega)]

/-- Placing words leaves everything but storage. -/
theorem State.placeWords_frame (ws : List InstrWord) : ∀ (s : State) (base : Nat),
    (s.placeWords base ws).pc = s.pc ∧ SameRegs s (s.placeWords base ws) ∧ SameHiLo s (s.placeWords base ws)
      ∧ SameControl s (s.placeWords base ws) ∧ SamePorts s (s.placeWords base ws) := by
  induction ws with
  | nil => intro s b; exact ⟨rfl, fun _ => rfl, ⟨rfl, rfl⟩, ⟨rfl, rfl, rfl, rfl, rfl, rfl, rfl⟩, ⟨rfl, rfl⟩⟩
  | cons w rest ih =>
    intro s b
    obtain ⟨h3, h4, h5, h6, h7⟩ := ih (s.placeWord b w) (b + 4)
    exact ⟨h3, h4, ⟨h5.1, h5.2⟩, ⟨h6.1, h6.2, h6.3, h6.4, h6.5, h6.6, h6.7⟩, ⟨h7.1, h7.2⟩⟩

end Sys2Proof.Machine
end

