-- ==== Sys2Proof/Laws/PerInstr.lean ====
section
/-!
SUPPORT. The per-instruction family EncodingMatchesTable: the word the encoder writes for an instruction carries its
row's value of spec/opcode_table.json on the row's mask.
-/

namespace Sys2Proof.Laws.EncodingMatchesTable

/-- The selecting bits of the instruction's word are its table row's. -/
def Statement (i : Instr) : Prop := encode i &&& selectMask i = selectValue i

/-- The selecting bits of an R-type word: opcode and function. -/
theorem select_encodeR (rs rt rd : Reg) (shamt : BitVec 5) (fn : BitVec 6) :
    encodeR rs rt rd shamt fn &&& 0xFC00003F#32 = fn.setWidth 32 := by
  have hl : encodeR rs rt rd shamt fn &&& 0xFC00003F#32
      = (opcodeField (encodeR rs rt rd shamt fn)).setWidth 32 <<< 26
        ||| (functionField (encodeR rs rt rd shamt fn)).setWidth 32 := by
    generalize encodeR rs rt rd shamt fn = w
    ext k hk
    simp only [opcodeField, functionField, BitVec.getElem_and, BitVec.getElem_or, BitVec.getElem_shiftLeft,
      BitVec.getElem_setWidth, BitVec.getLsbD_extractLsb', Nat.zero_add]
    interval_cases k <;> simp [BitVec.getLsbD_eq_getElem]
  rw [hl]
  simp

/-- The selecting bits of an I-type word: the opcode. -/
theorem select_encodeI (op : BitVec 6) (rs rt : Reg) (imm : BitVec 16) :
    encodeI op rs rt imm &&& 0xFC000000#32 = op.setWidth 32 <<< 26 := by
  have hl : encodeI op rs rt imm &&& 0xFC000000#32 = (opcodeField (encodeI op rs rt imm)).setWidth 32 <<< 26 := by
    generalize encodeI op rs rt imm = w
    ext k hk
    simp only [opcodeField, BitVec.getElem_and, BitVec.getElem_shiftLeft,
      BitVec.getElem_setWidth, BitVec.getLsbD_extractLsb']
    interval_cases k <;> simp [BitVec.getLsbD_eq_getElem]
  rw [hl]
  simp

theorem add (rd rs rt : Reg) : Statement (.add rd rs rt) := select_encodeR rs rt rd 0 0x20
theorem sub (rd rs rt : Reg) : Statement (.sub rd rs rt) := select_encodeR rs rt rd 0 0x22
theorem slt (rd rs rt : Reg) : Statement (.slt rd rs rt) := select_encodeR rs rt rd 0 0x2A
theorem sltu (rd rs rt : Reg) : Statement (.sltu rd rs rt) := select_encodeR rs rt rd 0 0x2B
theorem mult (rs rt : Reg) : Statement (.mult rs rt) := select_encodeR rs rt 0 0 0x18
theorem multu (rs rt : Reg) : Statement (.multu rs rt) := select_encodeR rs rt 0 0 0x19
theorem div (rs rt : Reg) : Statement (.div rs rt) := select_encodeR rs rt 0 0 0x1A
theorem divu (rs rt : Reg) : Statement (.divu rs rt) := select_encodeR rs rt 0 0 0x1B
theorem mfhi (rd : Reg) : Statement (.mfhi rd) := select_encodeR 0 0 rd 0 0x10
theorem mflo (rd : Reg) : Statement (.mflo rd) := select_encodeR 0 0 rd 0 0x12
theorem lis (rd : Reg) : Statement (.lis rd) := select_encodeR 0 0 rd 0 0x14
theorem jr (rs : Reg) : Statement (.jr rs) := select_encodeR rs 0 0 0 0x08
theorem jalr (rs : Reg) : Statement (.jalr rs) := select_encodeR rs 0 0 0 0x09
theorem lw (rt rs : Reg) (imm : BitVec 16) : Statement (.lw rt rs imm) := select_encodeI 0x23 rs rt imm
theorem sw (rt rs : Reg) (imm : BitVec 16) : Statement (.sw rt rs imm) := select_encodeI 0x2B rs rt imm
theorem beq (rs rt : Reg) (imm : BitVec 16) : Statement (.beq rs rt imm) := select_encodeI 0x04 rs rt imm
theorem bne (rs rt : Reg) (imm : BitVec 16) : Statement (.bne rs rt imm) := select_encodeI 0x05 rs rt imm

end Sys2Proof.Laws.EncodingMatchesTable
end

