-- ==== Sys2Proof/Laws/Run.lean ====
section
/-!
SUPPORT. What the operations over runs can do, said once (41_core_cycle.md R101, R102; Machine/Run.lean).
-/

namespace Sys2Proof.Machine

/-! ### The host's `cycle` and `execute` -/

/-- A command that ends by a step gives a next state exactly where the step does, with the reply that state stands for. -/
theorem ofStep_eq_next {o : Host.Outcome State Fault Refusal} {t : State} {r : HostReply} :
    ofStep o = .next (t, r) ↔ o = .next t ∧ r = replyAfter t := by
  cases o with
  | next u =>
    simp only [ofStep, Host.Outcome.next.injEq, Prod.mk.injEq]
    constructor
    · rintro ⟨rfl, rfl⟩; exact ⟨rfl, rfl⟩
    · rintro ⟨rfl, rfl⟩; exact ⟨rfl, rfl⟩
  | fault f => simp [ofStep]
  | refused f => simp [ofStep]

@[simp] theorem replyAfter_of_fault {t : State} {f : FaultRecord} (h : t.fault = some f) :
    replyAfter t = .error f.error := by
  simp [replyAfter, h]

@[simp] theorem replyAfter_of_refused {t : State} (h : t.fault = none) (hr : t.refused = true) :
    replyAfter t = .refused := by
  simp [replyAfter, h, hr]

@[simp] theorem replyAfter_of_completed {t : State} (h : t.fault = none) (hr : t.refused = false) :
    replyAfter t = .done := by
  simp [replyAfter, h, hr]

/-! ### Standing -/

/-- A state is going exactly where a cycle is enabled. -/
theorem State.standing_eq_going {s : State} : s.standing = .going ↔ s.enabled = true := by
  rw [State.enabled_iff]
  unfold State.standing
  cases s.refused <;> cases s.running <;> cases s.fault <;> simp

/-- A state stands idle exactly where it is neither running nor faulted nor refused. -/
theorem State.standing_eq_idle {s : State} :
    s.standing = .idle ↔ s.running = false ∧ s.fault = none ∧ s.refused = false := by
  unfold State.standing
  cases s.refused <;> cases s.running <;> cases s.fault <;> simp

/-! ### The states of a run -/

@[simp] theorem State.afterCycles_zero (s : State) : s.afterCycles 0 = some s := rfl

theorem State.afterCycles_succ {s t : State} (h : step s = .next t) (k : Nat) :
    s.afterCycles (k + 1) = t.afterCycles k := by
  simp only [State.afterCycles, h]

/-- One cycle more is the step of the state reached before it. -/
theorem State.afterCycles_succ_eq_some {k : Nat} : ∀ {s t : State},
    s.afterCycles (k + 1) = some t ↔ ∃ u, s.afterCycles k = some u ∧ step u = .next t := by
  induction k with
  | zero =>
    intro s t
    cases h : step s <;> simp [State.afterCycles, h]
  | succ k ih =>
    intro s t
    cases h : step s with
    | next v => rw [State.afterCycles_succ h, State.afterCycles_succ h, ih]
    | fault f => simp [State.afterCycles, h]
    | refused f => simp [State.afterCycles, h]

/-- No end leaves a cycle enabled. -/
theorem RunEnd.holds_not_going {e : RunEnd} {k : Nat} {t : State} (h : e.holds k t) : t.standing ≠ .going := by
  intro hg
  cases e <;> simp [RunEnd.holds, hg] at h

end Sys2Proof.Machine
end

