-- ==== Sys2Proof/Machine/Assembly.lean ====
section
/-!
DEFINITION. The assembly text of an instruction (30_encoding.md R76 to R79, D26): notation only, no part of execution.
-/

namespace Sys2Proof.Machine

/-- Operands separated by commas, without a space (R76). -/
def operandText (ops : List String) : String := String.intercalate "," ops

/-- A memory operand `offset($base)`; the offset is signed, in bytes (R76, R78), and written in decimal (log 34). -/
def memoryOperand (imm : BitVec 16) (rs : Reg) : String := toString imm.toInt ++ "(" ++ registerName rs ++ ")"

/-- The syntax of every instruction (R77). A branch's third operand is the signed word count (R78), in decimal (log 34). -/
def asmText : Instr → String
  | .add rd rs rt => "add " ++ operandText [registerName rd, registerName rs, registerName rt]
  | .sub rd rs rt => "sub " ++ operandText [registerName rd, registerName rs, registerName rt]
  | .slt rd rs rt => "slt " ++ operandText [registerName rd, registerName rs, registerName rt]
  | .sltu rd rs rt => "sltu " ++ operandText [registerName rd, registerName rs, registerName rt]
  | .mult rs rt => "mult " ++ operandText [registerName rs, registerName rt]
  | .multu rs rt => "multu " ++ operandText [registerName rs, registerName rt]
  | .div rs rt => "div " ++ operandText [registerName rs, registerName rt]
  | .divu rs rt => "divu " ++ operandText [registerName rs, registerName rt]
  | .mfhi rd => "mfhi " ++ registerName rd
  | .mflo rd => "mflo " ++ registerName rd
  | .lis rd => "lis " ++ registerName rd
  | .jr rs => "jr " ++ registerName rs
  | .jalr rs => "jalr " ++ registerName rs
  | .lw rt rs imm => "lw " ++ operandText [registerName rt, memoryOperand imm rs]
  | .sw rt rs imm => "sw " ++ operandText [registerName rt, memoryOperand imm rs]
  | .beq rs rt imm => "beq " ++ operandText [registerName rs, registerName rt, toString imm.toInt]
  | .bne rs rt imm => "bne " ++ operandText [registerName rs, registerName rt, toString imm.toInt]

/-- The literal word after a `lis`, `.word v` (R79). `v` is written in unsigned decimal: DESIGN CHOICE (log 34), since the spec names
no base for it and its own listings use decimal and hexadecimal. -/
def literalText (v : InstrWord) : String := ".word " ++ toString v.toNat

/-! ### Operands written as numbers (R76, R78) -/

/-- A three-register instruction from register numbers, refused where a number is not 0 to 31. -/
def threeRegisters (make : Reg → Reg → Reg → Instr) (d s t : Nat) : Option Instr := do
  return make (← Reg.ofNumber? d) (← Reg.ofNumber? s) (← Reg.ofNumber? t)

/-- A two-register instruction with an immediate from numbers, refused where one is out of its range. -/
def twoRegistersImm (make : Reg → Reg → BitVec 16 → Instr) (a b : Nat) (i : Int) : Option Instr := do
  return make (← Reg.ofNumber? a) (← Reg.ofNumber? b) (← immediateField? i)

end Sys2Proof.Machine
end

