-- ==== Sys2Proof/Tests/Slice0.lean ====
section
/-!
SUPPORT. The model's own tests. Expected values come from 95_test_vectors.md and the rules' corner cases and examples, under its
test configuration T, or are worked out by hand from the rule the instruction's definition cites. The last part shows, for each obligation with hypotheses, a state and operands
that meet them.
-/

namespace Sys2Proof.Tests

open Sys2Proof.Machine

/-! ### Helpers -/

/-- The reset state, started, with some registers set. -/
def regsAre (l : List (Reg × Word)) : State :=
  l.foldl (fun s p => s.writeReg p.1 p.2) { State.reset with running := true }

/-- One word in the cell at an address, and PC there. -/
def State.atWord (s : State) (a : Word) (w : InstrWord) : State := (s.placeWord a.toNat w).setPc a

/-- The next state of an outcome, if it has one. -/
def nextOf {α : Type} : Host.Outcome α Fault Refusal → Option α
  | .next t => some t
  | .fault _ => none
  | .refused _ => none

/-- A field of the next state of an outcome. -/
def field {β : Type} (f : State → β) (o : Host.Outcome State Fault Refusal) : Option β := (nextOf o).map f

/-- The refusal of an outcome, if it is one. -/
def refusalOf : Host.Outcome State Fault Refusal → Option Refusal
  | .next _ => none
  | .fault _ => none
  | .refused r => some r

/-- The fault of an outcome, if it is one. -/
def faultOf : Host.Outcome State Fault Refusal → Option Fault
  | .next _ => none
  | .fault f => some f
  | .refused _ => none

/-! ### Well-formedness: each check refuses an ill-formed value -/

theorem test_testT_wellFormed : Config.testT.wellFormed = true := by decide
theorem test_memSize_not_multiple_refused : Config.memSizeOk { Config.testT with memSize := 0x1008 } = false := by decide
theorem test_memSize_zero_refused : Config.memSizeOk { Config.testT with memSize := 0 } = false := by decide
theorem test_memSize_above_threshold_refused :
    Config.memSizeOk { Config.testT with memSize := 0xFFFF0010 } = false := by decide
theorem test_threshold_refused : Config.thresholdOk { Config.testT with mmioThreshold := 2 ^ 32 + 16 } = false := by decide
theorem test_port_below_threshold_refused : Config.testT.portOk 0xFFFEFFF0 = false := by decide
theorem test_port_not_multiple_refused : Config.testT.portOk 0xFFFF0004 = false := by decide
theorem test_port_beyond_32_bits_refused : Config.testT.portOk (2 ^ 32) = false := by decide
theorem test_equal_ports_refused :
    Config.wellFormed { Config.testT with outputPort := 0xFFFF0000 } = false := by decide
theorem test_registerNumber_refused : registerNumberOk 32 = false ∧ Reg.ofNumber? 32 = none := by decide
theorem test_immediate_refused : immediateOk 32768 = false ∧ immediateField? (-32769) = none := by decide
theorem test_immediate_accepted : immediateField? (-16) = some 0xFFF0 ∧ immediateField? 32767 = some 0x7FFF := by decide

/-! ### Decoding: words written out from 30_encoding.md, one for each constructor -/

theorem test_decode_add : decode 0b00000000001000100001100000100000 = .ok (.add 3 1 2) := by decide
theorem test_decode_sub : decode 0b00000000001000100001100000100010 = .ok (.sub 3 1 2) := by decide
theorem test_decode_slt : decode 0b00000000001000100001100000101010 = .ok (.slt 3 1 2) := by decide
theorem test_decode_sltu : decode 0b00000000001000100001100000101011 = .ok (.sltu 3 1 2) := by decide
theorem test_decode_mult : decode 0b00000000001000100000000000011000 = .ok (.mult 1 2) := by decide
theorem test_decode_multu : decode 0b00000000001000100000000000011001 = .ok (.multu 1 2) := by decide
theorem test_decode_div : decode 0b00000000001000100000000000011010 = .ok (.div 1 2) := by decide
theorem test_decode_divu : decode 0b00000000001000100000000000011011 = .ok (.divu 1 2) := by decide
theorem test_decode_mfhi : decode 0b00000000000000000001100000010000 = .ok (.mfhi 3) := by decide
theorem test_decode_mflo : decode 0b00000000000000000001100000010010 = .ok (.mflo 3) := by decide
theorem test_decode_lis : decode 0b00000000000000000000100000010100 = .ok (.lis 1) := by decide
theorem test_decode_jr : decode 0b00000011111000000000000000001000 = .ok (.jr 31) := by decide
theorem test_decode_jalr : decode 0b00000000101000000000000000001001 = .ok (.jalr 5) := by decide
theorem test_decode_lw : decode 0b10001100001000101111111111110000 = .ok (.lw 2 1 0xFFF0) := by decide
theorem test_decode_sw : decode 0b10101100001000100000000000010000 = .ok (.sw 2 1 0x0010) := by decide
theorem test_decode_beq : decode 0b00010000001000100000000000000100 = .ok (.beq 1 2 4) := by decide
theorem test_decode_bne : decode 0b00010100001000001111111111111101 = .ok (.bne 1 0 0xFFFD) := by decide

/-- The decoder vectors of 95_test_vectors.md section 2.1. -/
theorem test_decode_errors :
    decode 0x00000000 = .error ⟨.function, 0x00⟩ ∧ decode 0x0000003F = .error ⟨.function, 0x3F⟩
    ∧ decode 0x00000021 = .error ⟨.function, 0x21⟩ ∧ decode 0x00000025 = .error ⟨.function, 0x25⟩
    ∧ decode 0x08000000 = .error ⟨.opcode, 0x02⟩ ∧ decode 0x0C000000 = .error ⟨.opcode, 0x03⟩
    ∧ decode 0x20000000 = .error ⟨.opcode, 0x08⟩ ∧ decode 0xFC200014 = .error ⟨.opcode, 0x3F⟩ := by decide

theorem test_decode_ignored_fields :
    decode 0x002218E0 = .ok (.add 3 1 2) ∧ decode 0x0022FFE0 = .ok (.add 31 1 2)
    ∧ decode 0x03E0F809 = .ok (.jalr 31) ∧ decode 0x03FF0008 = .ok (.jr 31)
    ∧ decode 0x0000002B = .ok (.sltu 0 0 0) ∧ decode 0xAC000000 = .ok (.sw 0 0 0) := by decide

theorem test_decodeTableWord :
    decodeTableWord 32 0x00221820 = some (.add 3 1 2) ∧ decodeTableWord 32 0x0000003F = none := by decide

theorem test_jumpAddress_field : jumpAddressField 0x0BFFFFFF = 0x3FFFFFF ∧ shamtField 0x002218E0 = 3 := by decide

/-! ### The arithmetic unit (40_arithmetic_unit.md) -/

theorem test_sign_extenders :
    signExtend16 0xFFFD = BitVec.ofInt 128 (-3) ∧ signExtend32 0x80000000 = 0xFFFFFFFFFFFFFFFFFFFFFFFF80000000
    ∧ zeroExtend32 0x80000000 = 0x80000000 := by decide

/-- Both operands' halves sum to 65 bits, so the middle product needs one more level (R87). -/
theorem test_karatsuba_needs_two_levels :
    karatsuba 3 (2 ^ 128 - 1) (2 ^ 128 - 1) 128 = some ((2 ^ 128 - 1) * (2 ^ 128 - 1))
    ∧ karatsuba 2 (2 ^ 128 - 1) (2 ^ 128 - 1) 128 = none := by decide

/-! ### Integer ALU -/

theorem test_add_scenario1 : field (·.reg 3) (exec (.add 3 1 2) (regsAre [(1, 100), (2, 200)])) = some 300 := by decide
theorem test_add_wraps_onto_source :
    field (·.reg 1) (exec (.add 1 1 2) (regsAre [(1, 0xFFFFFFFFFFFFFFFFFFFFFFFFFFFFFFFF), (2, 3)])) = some 2 := by decide
theorem test_sub_borrows :
    field (·.reg 3) (exec (.sub 3 1 2) (regsAre [(1, 5), (2, 7)])) = some 0xFFFFFFFFFFFFFFFFFFFFFFFFFFFFFFFE := by decide
theorem test_sub_to_zero_register : field (·.reg 0) (exec (.sub 0 0 1) (regsAre [(1, 1)])) = some 0 := by decide
theorem test_slt_signed :
    field (·.reg 3) (exec (.slt 3 1 2) (regsAre [(1, 0xFFFFFFFFFFFFFFFFFFFFFFFFFFFFFFFF), (2, 1)])) = some 1 := by decide
theorem test_slt_extremes :
    field (·.reg 3) (exec (.slt 3 1 2) (regsAre
      [(1, 0x80000000000000000000000000000000), (2, 0x7FFFFFFFFFFFFFFFFFFFFFFFFFFFFFFF)])) = some 1 := by decide
theorem test_sltu_unsigned :
    field (·.reg 3) (exec (.sltu 3 1 2) (regsAre [(1, 0xFFFFFFFFFFFFFFFFFFFFFFFFFFFFFFFF), (2, 1)])) = some 0 := by decide
theorem test_sltu_zero_below : field (·.reg 3) (exec (.sltu 3 0 2) (regsAre [(2, 1)])) = some 1 := by decide

/-! ### Multiply and divide -/

theorem test_mult_negative :
    field (fun t => (t.hi, t.lo)) (exec (.mult 1 2) (regsAre [(1, 0xFFFFFFFFFFFFFFFFFFFFFFFFFFFFFFFF), (2, 1)]))
      = some (0xFFFFFFFFFFFFFFFFFFFFFFFFFFFFFFFF, 0xFFFFFFFFFFFFFFFFFFFFFFFFFFFFFFFF) := by decide
theorem test_mult_most_negative_square :
    field (fun t => (t.hi, t.lo)) (exec (.mult 1 1) (regsAre [(1, 0x80000000000000000000000000000000)]))
      = some (0x40000000000000000000000000000000, 0) := by decide
theorem test_multu_largest :
    field (fun t => (t.hi, t.lo)) (exec (.multu 1 1) (regsAre [(1, 0xFFFFFFFFFFFFFFFFFFFFFFFFFFFFFFFF)]))
      = some (0xFFFFFFFFFFFFFFFFFFFFFFFFFFFFFFFE, 1) := by decide
theorem test_multu_carries_into_hi :
    field (fun t => (t.hi, t.lo)) (exec (.multu 1 2) (regsAre [(1, 0x80000000000000000000000000000000), (2, 2)]))
      = some (1, 0) := by decide
theorem test_div_truncates :
    field (fun t => (t.lo, t.hi)) (exec (.div 1 2) (regsAre [(1, BitVec.ofInt 128 (-7)), (2, 2)]))
      = some (BitVec.ofInt 128 (-3), BitVec.ofInt 128 (-1)) := by decide
theorem test_div_overflow_wraps :
    field (fun t => (t.lo, t.hi)) (exec (.div 1 2)
      (regsAre [(1, 0x80000000000000000000000000000000), (2, 0xFFFFFFFFFFFFFFFFFFFFFFFFFFFFFFFF)]))
      = some (0x80000000000000000000000000000000, 0) := by decide
theorem test_divu_unsigned :
    field (fun t => (t.lo, t.hi)) (exec (.divu 1 2) (regsAre [(1, BitVec.ofInt 128 (-7)), (2, 2)]))
      = some (0x7FFFFFFFFFFFFFFFFFFFFFFFFFFFFFFC, 1) := by decide
theorem test_divu_by_zero :
    field (fun t => (t.fault, t.lo)) (exec (.divu 1 2) ((regsAre [(1, 9)]).setPc 8))
      = some (some ⟨.divideByZero 2, 4⟩, 0) := by decide
theorem test_mfhi_copies : field (·.reg 3) (exec (.mfhi 3) ((regsAre []).setHiLo 7 8)) = some 7 := by decide
theorem test_mflo_copies : field (·.reg 3) (exec (.mflo 3) ((regsAre []).setHiLo 7 8)) = some 8 := by decide

/-! ### Loads, stores, the literal -/

theorem test_lw_negative_offset :
    field (·.reg 2) (exec (.lw 2 1 0xFFF0) ((regsAre [(1, 0x1010)]).storeCell 0x1000 0x123456789ABCDEF0123456789ABCDEF))
      = some 0x123456789ABCDEF0123456789ABCDEF := by decide
theorem test_lw_wrapped_address_refused :
    refusalOf (exec (.lw 2 1 0xFFF0) (regsAre [])) = some (.mmioLoad 0xFFFFFFFFFFFFFFFFFFFFFFFFFFFFFFF0) := by decide
theorem test_sw_stores :
    field (fun t => (t.cell 0x1010, t.cell 0x1000)) (exec (.sw 2 1 16) (regsAre [(1, 0x1000), (2, 0x1234)]))
      = some (0x1234, 0) := by decide
theorem test_sw_prints :
    field (fun t => (t.outLog, t.mem)) (exec (.sw 2 1 0) (regsAre [(1, 0xFFFF0010), (2, 42)])) = some ([42], []) := by decide
theorem test_lis_takes_low_32_bits :
    field (fun t => (t.reg 1, t.pc)) (exec (.lis 1)
      (((regsAre []).storeCell 4 0x11111111222222223333333344444444).setPc 4)) = some (0x44444444, 8) := by decide
theorem test_lis_sign :
    field (·.reg 1) (exec (.lis 1)
      ((({ regsAre [] with config := { Config.testT with lisExt := .sign } }).storeCell 4 0x80000000).setPc 4))
      = some 0xFFFFFFFFFFFFFFFFFFFFFFFF80000000 := by decide

/-! ### Branches and jumps -/

theorem test_beq_scenario5 :
    field (·.pc) (exec (.beq 1 2 4) ((regsAre [(1, 100), (2, 100)]).setPc 0x104)) = some 0x114 := by decide
theorem test_beq_wraps_below_zero :
    field (·.pc) (exec (.beq 0 0 0x8000) ((regsAre []).setPc 0x104)) = some (BitVec.ofInt 128 (-0x1FEFC)) := by decide
theorem test_bne_backward : field (·.pc) (exec (.bne 1 0 0xFFFD) ((regsAre [(1, 3)]).setPc 0x1C)) = some 0x10 := by decide
theorem test_bne_compares_all_bits :
    field (·.pc) (exec (.bne 1 2 1) ((regsAre [(1, 0x100000000)]).setPc 4)) = some 8 := by decide
theorem test_jr_copies_all_bits : field (·.pc) (exec (.jr 1) (regsAre [(1, 0x1002)])) = some 0x1002 := by decide
theorem test_jalr_links :
    field (fun t => (t.pc, t.reg 31)) (exec (.jalr 5) ((regsAre [(5, 0x40)]).setPc 0x14)) = some (0x40, 0x14) := by decide
theorem test_jalr_31_reads_after_the_link :
    field (fun t => (t.pc, t.reg 31)) (exec (.jalr 31) ((regsAre [(31, 0x80)]).setPc 0x14)) = some (0x14, 0x14) := by decide

/-! ### The cycle -/

theorem test_step_from_reset_is_idle : faultOf (step State.reset) = some .coreIdle := by decide
theorem test_step_commits :
    field (fun t => (t.pc, t.instrCount, t.trace)) (step (State.reset.withFetchWord 32 0x00221820))
      = some (4, 1, [.resetEntry, .step 0 0x00221820]) := by decide
theorem test_step_runs_placed_lis :
    field (fun t => (t.pc, t.reg 31, t.fault)) (step (State.reset.withFetchWord 32 0x0000F814)) = some (8, 0, none) := by decide
theorem test_step_decode_fault :
    field (fun t => (t.fault, t.pc, t.instrCount)) (step (State.atWord (regsAre []) 0x40 0x3F))
      = some (some ⟨.decode ⟨.function, 0x3F⟩, 0x40⟩, 0x44, 0) := by decide
theorem test_step_fetch_fault :
    field (fun t => (t.fault, t.pc)) (step ((regsAre []).setPc 0x1002))
      = some (some ⟨.alignment 0x1002 4, 0x1002⟩, 0x1002) := by decide
theorem test_step_fetch_refused :
    field (fun t => (t.refused, t.pc)) (step ((regsAre []).setPc 0xFFFF0000)) = some (true, 0xFFFF0000) := by decide
theorem test_step_jr_0_halts :
    field (fun t => (t.running, t.pc, t.instrCount)) (step (State.atWord (regsAre []) 0x40 0x00000008))
      = some (false, 0, 1) := by decide
theorem test_step_jr_31_to_0_goes_on :
    field (fun t => (t.running, t.pc)) (step (State.atWord (regsAre []) 0x40 0x03E00008)) = some (true, 0) := by decide
theorem test_step_lis_at_end_of_memory :
    field (fun t => (t.fault, t.pc, t.reg 1)) (step (State.atWord (regsAre [(1, 6)]) 0xFFFC 0x00000814))
      = some (some ⟨.outOfBounds 0x10000, 0xFFFC⟩, 0x10000, 6) := by decide
theorem test_step_after_a_fault : faultOf (step ((regsAre []).raise (.outOfBounds 0))) = some .faultRecorded := by decide
theorem test_direct_execute_scenario6 :
    field (fun t => (t.fault, t.pc, t.instrCount)) (directExecute (State.reset.setPc 0x10) 0x3F)
      = some (some ⟨.decode ⟨.function, 0x3F⟩, 0xC⟩, 0x10, 0) := by decide

/-! ### The host -/

theorem test_host_register_32 :
    nextOf (hostCommand (.readReg 32) State.reset) = some (State.reset, .error (.invalidRegister 32)) := by decide
theorem test_host_execute_gives_the_error_back :
    ((nextOf (hostCommand (.execute 0x3F) State.reset)).map (·.2)) = some (.error (.decode ⟨.function, 0x3F⟩)) := by decide
theorem test_host_cycle_says_refused :
    ((nextOf (hostCommand .cycle ((regsAre []).setPc 0xFFFF0000))).map (·.2)) = some .refused := by decide
theorem test_host_restore_sets_running :
    ((nextOf (hostCommand (.restore (regsAre []).snapshot) State.reset)).map (·.1.running)) = some true := by decide
theorem test_host_store_misaligned :
    nextOf (hostCommand (.storeWord 0x1008 1) State.reset) = some (State.reset, .error (.alignment 0x1008 16)) := by decide
theorem test_host_loadProgram :
    ((nextOf (hostCommand (.loadProgram 0 [0x00000814, 5]) State.reset)).map fun p => (p.1.cell 0, p.1.cell 4, p.1.cell 8))
      = some (0x00000814, 5, 0) := by decide
theorem test_host_reset_keeps_memory :
    ((nextOf (hostCommand .reset ((regsAre [(5, 9)]).storeCell 0x2000 7))).map fun p => (p.1.cell 0x2000, p.1.reg 5))
      = some (7, 0) := by decide
theorem test_host_dump :
    State.dump ((State.reset.storeCell 0x20 0).storeCell 0x10 5) 0x10 0x20 = [(0x10, 5), (0x20, 0)] := by decide
theorem test_error_codes :
    (Error.decode ⟨.opcode, 2⟩).code = 1 ∧ (Error.alignment 1 4).code = 2 ∧ (Error.outOfBounds 0).code = 3
    ∧ (Error.divideByZero 0).code = 4 ∧ (Error.invalidRegister 32).code = 5 := by decide
theorem test_asm_lw : asmText (.lw 2 1 0xFFF0) = "lw $2,-16($1)" := by decide
theorem test_register_name : registerName 31 = "$31" := by decide
theorem test_hex_digits : hexDigits 0xCE = List.replicate 30 '0' ++ ['C', 'E'] := by decide

/-! ### Witnesses: for each obligation with hypotheses, values that meet them, with each clause's boundary -/

theorem witness_EncodeOfDecodeKeepsUsedBits : decode 0x0022FFE0 = .ok (.add 31 1 2) := by decide

theorem witness_OnlySelectingAndUsedFieldsMatter :
    decode 0x002218E0 = .ok (.add 3 1 2)
    ∧ 0xFFFFFFE0#32 &&& selectMask (.add 3 1 2) ≠ selectValue (.add 3 1 2)
    ∧ 0x03FFFFE0#32 &&& selectMask (.add 3 1 2) = selectValue (.add 3 1 2)
    ∧ 0x00221FE0#32 &&& usedBits (.add 3 1 2) = 0x002218E0 &&& usedBits (.add 3 1 2) := by decide

theorem witness_UnknownFunctionRejected :
    opcodeField 0x03FFFFFF = 0 ∧ functionField 0x03FFFFFF = 0x3F
    ∧ functionField 0x03FFFFFF ∉
        ([0x20, 0x22, 0x18, 0x19, 0x1A, 0x1B, 0x10, 0x12, 0x14, 0x08, 0x09, 0x2A, 0x2B] : List (BitVec 6))
    ∧ State.reset.fault = none ∧ State.reset.refused = false := by decide

theorem witness_UnknownOpcodeRejected :
    opcodeField 0xFC000000 ≠ 0 ∧ opcodeField 0xFC000000 ∉ ([0x23, 0x2B, 0x04, 0x05] : List (BitVec 6))
    ∧ opcodeField 0x0BFFFFFF = 0x02 ∧ opcodeField 0x0C000000 = 0x03 := by decide

theorem witness_DivEffect : (regsAre [(1, 0x80000000000000000000000000000000),
    (2, 0xFFFFFFFFFFFFFFFFFFFFFFFFFFFFFFFF)]).reg 2 ≠ 0 := by decide

theorem witness_DivuEffect : (regsAre [(2, 1)]).reg 2 ≠ 0 := by decide

theorem witness_ZeroDivisorRaises : (regsAre [(1, 9)]).reg 2 = 0 ∧ (regsAre [(1, 9)]).reg 0 = 0 := by decide

theorem witness_MultiplyDivideProperties :
    ((2 : Word) ≠ 0)
    ∧ ((0xFFFFFFFFFFFFFFFFFFFFFFFFFFFFFFFF : Word) ≠ 0
      ∧ (0x80000000000000000000000000000000 : Word).toInt = -2 ^ 127
      ∧ (0xFFFFFFFFFFFFFFFFFFFFFFFFFFFFFFFF : Word).toInt = -1) := by decide

/-- The last cell a data access can reach (95_test_vectors.md P-f), by a negative offset. -/
theorem witness_LwFromStorage : DataStorage (regsAre [(1, 0x10000)]) ((regsAre [(1, 0x10000)]).effectiveAddress 1 0xFFF0) := by
  unfold DataStorage; decide

theorem witness_LwFromInputPort :
    DataMmio (regsAre [(1, 0xFFFF0000)]) ((regsAre [(1, 0xFFFF0000)]).effectiveAddress 1 0)
    ∧ ((regsAre [(1, 0xFFFF0000)]).effectiveAddress 1 0).toNat = (regsAre [(1, 0xFFFF0000)]).config.inputPort := by
  unfold DataMmio; decide

theorem witness_SwToStorage : DataStorage (regsAre []) ((regsAre []).effectiveAddress 0 0x7FF0) := by
  unfold DataStorage; decide

theorem witness_SwToOutputPort :
    DataMmio (regsAre [(1, 0xFFFF0000)]) ((regsAre [(1, 0xFFFF0000)]).effectiveAddress 1 16)
    ∧ ((regsAre [(1, 0xFFFF0000)]).effectiveAddress 1 16).toNat = (regsAre [(1, 0xFFFF0000)]).config.outputPort := by
  unfold DataMmio; decide

/-- A misaligned port-range address, the input port for a store and the output port for a load, the first and the last address
between memory and the threshold, and the last cell: one for each branch of the statement and each end of its range. -/
theorem witness_LoadStoreStops :
    (0xFFFF0008#128).toNat % 16 ≠ 0
    ∧ (Config.testT.mmioThreshold ≤ (0xFFFF0010#128).toNat ∧ (0xFFFF0010#128).toNat ≠ Config.testT.inputPort)
    ∧ (Config.testT.mmioThreshold ≤ (0xFFFF0000#128).toNat ∧ (0xFFFF0000#128).toNat ≠ Config.testT.outputPort)
    ∧ ((0x10000#128).toNat % 16 = 0 ∧ Config.testT.memSize ≤ (0x10000#128).toNat)
    ∧ ((0xFFFEFFF0#128).toNat < Config.testT.mmioThreshold ∧ Config.testT.memSize ≤ (0xFFFEFFF0#128).toNat)
    ∧ (0xFFF0#128).toNat < Config.testT.memSize
    ∧ (regsAre [(1, 0xFFFF0008)]).effectiveAddress 1 0 = 0xFFFF0008
    ∧ (regsAre [(1, 0xFFFF0008)]).effectiveAddress 1 8 = 0xFFFF0010
    ∧ (regsAre [(1, 0xFFFF0008)]).effectiveAddress 1 0xFFF8 = 0xFFFF0000 := by decide

/-- The last word of memory as the literal. -/
theorem witness_LisEffect :
    FetchStorage ((regsAre []).setPc 0xFFFC) ((regsAre []).setPc 0xFFFC).pc ∧ FetchStorage (regsAre []) (regsAre []).pc := by
  unfold FetchStorage; decide

theorem witness_LisStops :
    (((regsAre []).setPc 0xFFFF0002).pc).toNat % 4 ≠ 0
    ∧ Config.testT.mmioThreshold ≤ (((regsAre []).setPc 0xFFFF0000).pc).toNat
    ∧ Config.testT.memSize ≤ (((regsAre []).setPc 0x10000).pc).toNat
    ∧ FetchStorage ((regsAre []).setPc 0xFFFC) 0xFFFC := by
  unfold FetchStorage; decide

/-- A load of the stored cell, and of the cell beside it. -/
theorem witness_StoreThenLoad :
    DataStorage (regsAre [(1, 0x1000), (2, 7)]) ((regsAre [(1, 0x1000), (2, 7)]).effectiveAddress 1 0)
    ∧ (∃ t, exec (.sw 2 1 0) (regsAre [(1, 0x1000), (2, 7)]) = .next t)
    ∧ DataStorage (regsAre [(1, 0x1000), (2, 7)]) ((regsAre [(1, 0x1000), (2, 7)]).effectiveAddress 1 16) := by
  refine ⟨?_, ⟨_, rfl⟩, ?_⟩ <;> unfold DataStorage <;> decide

theorem witness_FetchSeesStore :
    DataStorage (regsAre [(1, 0x20)]) ((regsAre [(1, 0x20)]).effectiveAddress 1 0)
    ∧ (∃ t, exec (.sw 1 1 0) (regsAre [(1, 0x20)]) = .next t)
    ∧ (0x24 : Word) ≠ (regsAre [(1, 0x20)]).effectiveAddress 1 0 := by
  refine ⟨?_, ⟨_, rfl⟩, by decide⟩
  unfold DataStorage; decide

theorem witness_MisalignedAccessHasNoOtherEffect :
    ((regsAre [(1, 0x1004)]).effectiveAddress 1 0).toNat % 16 ≠ 0
    ∧ ((regsAre [(1, 0xFFFF0008)]).effectiveAddress 1 0).toNat % 16 ≠ 0
    ∧ ((regsAre []).setPc 0x1002).pc.toNat % 4 ≠ 0 ∧ ((regsAre []).setPc 0x1002).enabled = true
    ∧ (0x1008#128).toNat % 16 ≠ 0 := by decide

theorem witness_HighAddressesAreRefused :
    (regsAre [(1, 0x100000000)]).config.wellFormed = true
    ∧ ((regsAre [(1, 0x100000000)]).effectiveAddress 1 0).toNat % 16 = 0
    ∧ 2 ^ 32 ≤ ((regsAre [(1, 0x100000000)]).effectiveAddress 1 0).toNat
    ∧ 2 ^ 32 ≤ ((regsAre []).effectiveAddress 0 0xFFF0).toNat
    ∧ ((regsAre []).setPc 0x100000000).pc.toNat % 4 = 0 ∧ 2 ^ 32 ≤ ((regsAre []).setPc 0x100000000).pc.toNat
    ∧ ((regsAre []).setPc 0x100000000).enabled = true := by decide

/-- A branch that completes, a word that does not decode, a fetch out of bounds and a refused fetch. -/
theorem witness_OnlyJumpsMisalignPc :
    (State.atWord (regsAre []) 0x40 0x1000FFFF).pc.toNat % 4 = 0
    ∧ field (·.pc) (step (State.atWord (regsAre []) 0x40 0x1000FFFF)) = some 0x40
    ∧ (∀ w rs, (State.atWord (regsAre []) 0x40 0x1000FFFF).fetch32 0x40 = .ok w →
        decode w ≠ .ok (.jr rs) ∧ decode w ≠ .ok (.jalr rs))
    ∧ field (·.pc) (step (State.atWord (regsAre []) 0x40 0x3F)) = some 0x44
    ∧ field (·.pc) (step ((regsAre []).setPc 0x10000)) = some 0x10000
    ∧ (∀ w, ((regsAre []).setPc 0x10000).fetch32 0x10000 ≠ .ok w)
    ∧ field (·.pc) (step ((regsAre []).setPc 0xFFFF0000)) = some 0xFFFF0000 := by
  refine ⟨by decide, by decide, ?_, by decide, by decide, ?_, by decide⟩
  · intro w rs h
    have e : (State.atWord (regsAre []) 0x40 0x1000FFFF).fetch32 0x40 = .ok 0x1000FFFF := by decide
    rw [e] at h
    cases h
    revert rs
    decide
  · intro w h
    have e : ((regsAre []).setPc 0x10000).fetch32 0x10000 = .raised (.outOfBounds 0x10000) := by decide
    rw [e] at h
    cases h

/-- A completed `add`, a `div` that raises, a `jr $0` and a refused `lw`: each outcome the statement tells apart. -/
theorem witness_StepRunsDecodedInstruction :
    (State.atWord (regsAre []) 0x40 0x00221820).enabled = true
    ∧ (State.atWord (regsAre []) 0x40 0x00221820).fetch32 0x40 = .ok 0x00221820
    ∧ decode 0x00221820 = .ok (.add 3 1 2)
    ∧ field (·.fault) (exec (.add 3 1 2) ((State.atWord (regsAre []) 0x40 0x00221820).setPc 0x44)) = some none
    ∧ decode 0x0020001A = .ok (.div 1 0)
    ∧ field (·.fault) (exec (.div 1 0) ((State.atWord (regsAre []) 0x40 0x0020001A).setPc 0x44))
        = some (some ⟨.divideByZero 0, 0x40⟩)
    ∧ decode 0x00000008 = .ok (.jr 0)
    ∧ decode 0x8C02FFF0 = .ok (.lw 2 0 0xFFF0)
    ∧ refusalOf (exec (.lw 2 0 0xFFF0) ((State.atWord (regsAre []) 0x40 0x8C02FFF0).setPc 0x44))
        = some (.mmioLoad 0xFFFFFFFFFFFFFFFFFFFFFFFFFFFFFFF0) := by decide

/-- The first and the last fetch address between memory and the threshold, an unknown function and an unknown opcode, and a fault
of the fetch stage, of the decode stage and of the execute stage. -/
theorem witness_FaultIsPrecise :
    ((regsAre []).setPc 0x10000).enabled = true
    ∧ ((0x10000#128).toNat % 4 = 0 ∧ Config.testT.memSize ≤ (0x10000#128).toNat)
    ∧ ((0xFFFEFFFC#128).toNat % 4 = 0 ∧ (0xFFFEFFFC#128).toNat < Config.testT.mmioThreshold)
    ∧ (State.atWord (regsAre []) 0xFFFC 0x3F).enabled = true
    ∧ (State.atWord (regsAre []) 0xFFFC 0x3F).fetch32 0xFFFC = .ok 0x3F ∧ decode 0x3F = .error ⟨.function, 0x3F⟩
    ∧ (State.atWord (regsAre []) 0x40 0xFC000000).fetch32 0x40 = .ok 0xFC000000
    ∧ decode 0xFC000000 = .error ⟨.opcode, 0x3F⟩
    ∧ field (·.fault) (step ((regsAre []).setPc 0x10000)) = some (some ⟨.outOfBounds 0x10000, 0x10000⟩)
    ∧ field (·.fault) (step (State.atWord (regsAre []) 0x40 0x3F)) = some (some ⟨.decode ⟨.function, 0x3F⟩, 0x40⟩)
    ∧ field (·.fault) (step (State.atWord (regsAre []) 0x40 0x0020001A)) = some (some ⟨.divideByZero 0, 0x40⟩) := by decide

/-- The threshold (the input port), the output port and the highest aligned address as PC; and a refused `lw`. -/
theorem witness_RefusalLeavesStateAsBefore :
    ((regsAre []).setPc 0xFFFF0000).enabled = true
    ∧ ((0xFFFF0000#128).toNat % 4 = 0 ∧ Config.testT.mmioThreshold ≤ (0xFFFF0000#128).toNat)
    ∧ ((0xFFFF0010#128).toNat % 4 = 0 ∧ Config.testT.mmioThreshold ≤ (0xFFFF0010#128).toNat)
    ∧ ((BitVec.ofInt 128 (-4)).toNat % 4 = 0 ∧ Config.testT.mmioThreshold ≤ (BitVec.ofInt 128 (-4)).toNat)
    ∧ field (·.refused) (step (State.atWord (regsAre []) 0x40 0x8C02FFF0)) = some true := by decide

/-- A completed cycle with a trace one short of full and with a full one, a faulted cycle and a refused one. -/
theorem witness_CommitHappensExactlyOnCompletion :
    field (·.trace.length) (step { State.atWord (regsAre []) 0x40 0x00221820 with trace := List.replicate 99 .resetEntry })
        = some 100
    ∧ field (·.trace.length)
        (step { State.atWord (regsAre []) 0x40 0x00221820 with trace := List.replicate 100 .resetEntry }) = some 100
    ∧ field (fun t => (t.instrCount, t.fault.isSome)) (step (State.atWord (regsAre []) 0x40 0x3F)) = some (0, true)
    ∧ field (fun t => (t.instrCount, t.refused)) (step ((regsAre []).setPc 0xFFFF0000)) = some (0, true)
    ∧ field (fun t => (t.instrCount, t.fault.isSome)) (directExecute State.reset 0x00221820) = some (1, false)
    ∧ field (fun t => (t.instrCount, t.refused)) (directExecute State.reset 0x8C02FFF0) = some (0, true) := by decide

/-- `jr $31` to 0 and `jr $0`, each with ignored fields set. -/
theorem witness_HaltConvention_cycle :
    field (·.running) (step (State.atWord (regsAre []) 0x40 0x03FFFFC8)) = some true
    ∧ field (·.running) (step (State.atWord (regsAre []) 0x40 0x001FFFC8)) = some false := by decide

/-- A started core, a run of one cycle that ends normally and one that ends faulted. -/
theorem witness_HaltConvention :
    ((State.construct Config.testT).setRunning true).RunStart
    ∧ (∃ t, (State.atWord (regsAre []) 0x40 0x00000008).EndsAt 1 t .normal)
    ∧ ∃ t, ((State.construct Config.testT).setRunning true).EndsAt 1 t .faulted := by
  refine ⟨⟨_, .constructed Config.testT (by decide), rfl⟩, ⟨_, rfl, ?_, by decide, by decide⟩,
    ⟨_, rfl, ?_, show State.standing _ = .faulted by decide⟩⟩
  all_goals
    intro j hj
    obtain rfl : j = 0 := by omega
    exact ⟨_, rfl, by decide⟩

/-- Each error a cycle can record, each stage that can record it, and the ends of the out-of-bounds range. -/
theorem witness_ErrorsOfACycle :
    field (·.fault) (step (State.atWord (regsAre []) 0x40 0x0020001A)) = some (some ⟨.divideByZero 0, 0x40⟩)
    ∧ field (·.fault) (step (State.atWord (regsAre []) 0x40 0xFC000000)) = some (some ⟨.decode ⟨.opcode, 0x3F⟩, 0x40⟩)
    ∧ field (·.fault) (step ((regsAre []).setPc 0x1002)) = some (some ⟨.alignment 0x1002 4, 0x1002⟩)
    ∧ field (·.fault) (step (State.atWord (regsAre [(1, 8)]) 0x40 0x8C220000)) = some (some ⟨.alignment 8 16, 0x40⟩)
    ∧ field (·.fault) (step ((regsAre []).setPc 0xFFFEFFFC)) = some (some ⟨.outOfBounds 0xFFFEFFFC, 0xFFFEFFFC⟩)
    ∧ field (·.fault) (step (State.atWord (regsAre [(1, 0x10000)]) 0x40 0xAC220000))
        = some (some ⟨.outOfBounds 0x10000, 0x40⟩)
    ∧ field (·.fault) (step (State.atWord (regsAre []) 0xFFFC 0x00000814)) = some (some ⟨.outOfBounds 0x10000, 0xFFFC⟩) := by
  decide

theorem witness_GeneralRegisterWrites :
    (∃ t, exec (.jalr 5) (regsAre [(5, 0x40)]) = .next t) ∧ writesReg (.jalr 5) ≠ some 30
    ∧ (∃ t, exec (.mult 1 2) (regsAre []) = .next t) ∧ writesReg (.mult 1 2) ≠ some 0 :=
  ⟨⟨_, rfl⟩, by decide, ⟨_, rfl⟩, by decide⟩

/-- An instruction of each clause: one that writes neither, a divide that raises, a divide that completes, `mfhi`, `mflo`. -/
theorem witness_HiLoReadersAndWriters :
    (∃ t, exec (.mflo 3) ((regsAre []).setHiLo 7 8) = .next t)
    ∧ writesHiLo (.mflo 3) = false ∧ readsHi (.mflo 3) = false
    ∧ writesHiLo (.mfhi 3) = false ∧ readsLo (.mfhi 3) = false
    ∧ field (·.fault) (exec (.div 1 2) (regsAre [])) ≠ some (regsAre []).fault
    ∧ field (fun t => (t.hi, t.lo)) (exec (.div 1 2) ((regsAre [(1, 7), (2, 2)]).setHiLo 5 5)) = some (1, 3)
    ∧ (regsAre [(1, 7), (2, 2)]).reg 2 ≠ 0 := by
  refine ⟨⟨_, rfl⟩, ?_⟩
  decide

theorem witness_ZeroRegisterIsHardWired :
    writesReg (.add 0 1 1) = some 0 ∧ ∃ t, exec (.add 0 1 1) (regsAre [(1, 5)]) = .next t := ⟨by decide, ⟨_, rfl⟩⟩

/-- The invariant of a state with a cell listed, from its decidable parts. -/
theorem placed_state_meets_invariant : (State.reset.withFetchWord 32 0x00221820).Inv :=
  ⟨by decide, by decide, by decide, by decide, by decide, by decide, by decide, by decide⟩

theorem witness_StepKeepsInvariant :
    (State.reset.withFetchWord 32 0x00221820).Inv ∧ ∃ t, step (State.reset.withFetchWord 32 0x00221820) = .next t :=
  ⟨placed_state_meets_invariant, _, rfl⟩

theorem witness_HostCommandsKeepInvariant :
    (State.reset.withFetchWord 32 0x00221820).Inv
    ∧ ∃ t r, hostCommand (.storeWord 0xFFF0 1) (State.reset.withFetchWord 32 0x00221820) = .next (t, r) :=
  ⟨placed_state_meets_invariant, _, _, rfl⟩

theorem witness_ConstructionAndResetMeetInvariant :
    Config.testT.wellFormed = true
    ∧ Config.wellFormed ⟨16, 16, 16, 32, .sign, .extended⟩ = true := by decide

/-- A faulted state and a refused one, and a command that each allows. -/
theorem witness_OnlyResetClearsFaultAndRefusal :
    ((regsAre []).raise (.outOfBounds 0)).fault ≠ none ∧ (regsAre []).markRefused.refused = true
    ∧ nextOf (hostCommand .stop ((regsAre []).raise (.outOfBounds 0))) ≠ none
    ∧ nextOf (hostCommand .stop (regsAre []).markRefused) ≠ none
    ∧ HostCommand.stop ≠ .reset ∧ HostCommand.stop ≠ .construct := by decide

theorem witness_HostRegisterAccess :
    ((31 : Int) = (31 : Reg).val) ∧ ((0 : Int) = (0 : Reg).val) ∧ ((-1 : Int) < 0) ∧ (31 : Int) < 32 := by decide

theorem witness_HostMemoryAccess :
    DataStorage State.reset 0xFFF0 ∧ (0xFFFF0008#128).toNat % 16 ≠ 0
    ∧ ((0xFFFEFFF0#128).toNat % 16 = 0 ∧ (0xFFFEFFF0#128).toNat < State.reset.config.mmioThreshold
      ∧ State.reset.config.memSize ≤ (0xFFFEFFF0#128).toNat)
    ∧ DataMmio State.reset 0xFFFF0000 ∧ DataMmio State.reset 0xFFFF0010 ∧ DataMmio State.reset 0x100000000 := by
  unfold DataStorage DataMmio; decide

/-- A misaligned base, a second word just outside memory, and a last word just inside it. -/
theorem witness_LoadProgramPlacesWords :
    ([1, 2] : List InstrWord) ≠ [] ∧ 2 % 4 ≠ 0
    ∧ State.reset.config.memSize ≤ 0xFFFC + 4 * (([1, 2] : List InstrWord).length - 1)
    ∧ ¬ State.reset.config.memSize ≤ 0xFFFC + 4 * (([1] : List InstrWord).length - 1) := by decide

/-- A running core's snapshot and an Idle core; and that core left Idle by each of the two commands, and left there by a refused
restore. -/
theorem witness_RestoreOfSnapshot :
    (State.reset.withFetchWord 32 0x00221820).Inv ∧ (State.reset.withFetchWord 32 0x00221820).running = true
    ∧ State.reset.config.memSize = (State.reset.withFetchWord 32 0x00221820).config.memSize
    ∧ State.reset.running = false
    ∧ (∃ t, hostCommand .start State.reset = .next (t, .done) ∧ t.running = true)
    ∧ (∃ t, hostCommand (.restore (regsAre []).snapshot) State.reset = .next (t, .done) ∧ t.running = true)
    ∧ ∃ t, hostCommand (.restore { (regsAre []).snapshot with memory := [(0x10000, 1)] }) State.reset = .next (t, .refused)
        ∧ t.running = false :=
  ⟨placed_state_meets_invariant, rfl, rfl, rfl, ⟨_, rfl, rfl⟩, ⟨_, rfl, rfl⟩, ⟨_, rfl, rfl⟩⟩

/-- An Idle core: a word that does not decode, a completed instruction, a refused one, a `jr $0`, and a word that a started core's
cycle fetches. -/
theorem witness_DirectExecuteIsTheCyclesStages :
    State.reset.running = false ∧ State.reset.fault = none ∧ State.reset.refused = false
    ∧ decode 0x3F = .error ⟨.function, 0x3F⟩
    ∧ decode 0x00221820 = .ok (.add 3 1 2) ∧ field (·.fault) (exec (.add 3 1 2) State.reset) = some none
    ∧ decode 0x8C02FFF0 = .ok (.lw 2 0 0xFFF0)
    ∧ refusalOf (exec (.lw 2 0 0xFFF0) State.reset) = some (.mmioLoad 0xFFFFFFFFFFFFFFFFFFFFFFFFFFFFFFF0)
    ∧ decode 0x00000008 = .ok (.jr 0)
    ∧ field (fun t => (t.running, t.pc)) (directExecute (regsAre []) 0x00000008) = some (true, 0)
    ∧ (State.atWord State.reset 0x40 0x00221820).fetch32 0x40 = .ok 0x00221820 ∧ decode 0x00221820 ≠ .ok (.jr 0)
    ∧ field (·.refused) (directExecute ((State.atWord State.reset 0x40 0x00221820).setPc 0x44) 0x00221820)
        = some false := by decide

end Sys2Proof.Tests
end

/-!
PROOFS. Family 10_state.md: HI and LO (R21), `$0` (R11) and the `executionMode` tag (R27). Two runs from states that are related,
for example that differ in one field only, are compared by a simulation: a relation that agrees on what an execute stage reads,
and that the state's named updates keep, is kept by every execute stage (`exec_sim`) and by every cycle (`step_sim`).
-/

namespace Sys2Proof.Machine

/-! ### Relating outcomes and accesses -/

/-- Two outcomes of the same kind: next states related by `R`, or the same reason. -/
inductive OutcomeRel (R : State → State → Prop) :
    Host.Outcome State Fault Refusal → Host.Outcome State Fault Refusal → Prop where
  | next {s t : State} (h : R s t) : OutcomeRel R (.next s) (.next t)
  | fault (f : Fault) : OutcomeRel R (.fault f) (.fault f)
  | refused (r : Refusal) : OutcomeRel R (.refused r) (.refused r)

/-- Two accesses that end the same way: results related by `P`, or the same error or refusal. -/
inductive AccessRel {α : Type} (P : α → α → Prop) : Access α → Access α → Prop where
  | ok {a b : α} (h : P a b) : AccessRel P (.ok a) (.ok b)
  | raised (e : Error) : AccessRel P (.raised e) (.raised e)
  | refused (r : Refusal) : AccessRel P (.refused r) (.refused r)

/-- The results of two data reads: the same value, and related states after them. -/
def ReadRel (R : State → State → Prop) (x y : Word × State) : Prop := x.1 = y.1 ∧ R x.2 y.2

theorem AccessRel.of_eq {α : Type} {x y : Access α} (h : y = x) : AccessRel Eq x y := by
  subst h
  cases y with
  | ok a => exact .ok rfl
  | raised e => exact .raised e
  | refused r => exact .refused r

/-- Where the relation says that one state is an update of the other, one outcome is the other seen through the update. -/
theorem OutcomeRel.eq_mapNext {f : State → State} {x y : Host.Outcome State Fault Refusal}
    (h : OutcomeRel (fun s t => t = f s) x y) : y = mapNext f x := by
  cases h with
  | next h => exact congrArg Host.Outcome.next h
  | fault f => rfl
  | refused r => rfl

/-! ### Relations that the machine keeps -/

/-- Related states agree on everything an execute stage reads but HI and LO, and its updates, but that of HI and LO, keep them
related. -/
structure ExecSim (R : State → State → Prop) : Prop where
  config {s t : State} (h : R s t) : t.config = s.config
  reg {s t : State} (h : R s t) (r : Reg) : t.reg r = s.reg r
  pc {s t : State} (h : R s t) : t.pc = s.pc
  cell {s t : State} (h : R s t) (a : Nat) : t.cell a = s.cell a
  draws {s t : State} (h : R s t) : t.draws = s.draws
  writeReg {s t : State} (h : R s t) (r : Reg) (v : Word) : R (s.writeReg r v) (t.writeReg r v)
  setPc {s t : State} (h : R s t) (p : Word) : R (s.setPc p) (t.setPc p)
  raiseAt {s t : State} (h : R s t) (e : Error) (a : Word) : R (s.raiseAt e a) (t.raiseAt e a)
  storeCell {s t : State} (h : R s t) (a : Nat) (v : Word) : R (s.storeCell a v) (t.storeCell a v)
  afterDraw {s t : State} (h : R s t) : R s.afterDraw t.afterDraw
  print {s t : State} (h : R s t) (v : Word) : R (s.print v) (t.print v)

/-- Related states agree on everything a cycle reads, HI and LO among it, and every update of a cycle keeps them related. -/
structure StepSim (R : State → State → Prop) : Prop extends ExecSim R where
  hi {s t : State} (h : R s t) : t.hi = s.hi
  lo {s t : State} (h : R s t) : t.lo = s.lo
  fault {s t : State} (h : R s t) : t.fault = s.fault
  refused {s t : State} (h : R s t) : t.refused = s.refused
  running {s t : State} (h : R s t) : t.running = s.running
  setHiLo {s t : State} (h : R s t) (x y : Word) : R (s.setHiLo x y) (t.setHiLo x y)
  setRunning {s t : State} (h : R s t) (b : Bool) : R (s.setRunning b) (t.setRunning b)
  markRefused {s t : State} (h : R s t) : R s.markRefused t.markRefused
  commit {s t : State} (h : R s t) (a : Word) (w : InstrWord) : R (s.commit a w) (t.commit a w)

/-! ### The execute stage keeps a simulation -/

section exec

variable {R : State → State → Prop} {s t : State}

theorem ExecSim.instrAddr (hR : ExecSim R) (h : R s t) : t.instrAddr = s.instrAddr := by
  simp [State.instrAddr, hR.pc h]

theorem ExecSim.raise (hR : ExecSim R) (h : R s t) (e : Error) : R (s.raise e) (t.raise e) := by
  unfold State.raise
  rw [hR.instrAddr h]
  exact hR.raiseAt h e _

theorem ExecSim.effectiveAddress (hR : ExecSim R) (h : R s t) (rs : Reg) (imm : BitVec 16) :
    t.effectiveAddress rs imm = s.effectiveAddress rs imm := by
  simp [State.effectiveAddress, hR.reg h]

theorem ExecSim.branchTarget (hR : ExecSim R) (h : R s t) (imm : BitVec 16) :
    t.branchTarget imm = s.branchTarget imm := by
  simp [State.branchTarget, hR.pc h]

theorem ExecSim.fetch32 (hR : ExecSim R) (h : R s t) (a : Word) : t.fetch32 a = s.fetch32 a :=
  State.fetch32_congr a (hR.config h) (hR.cell h _)

theorem ExecSim.memRead (hR : ExecSim R) (h : R s t) (a : Word) :
    AccessRel (ReadRel R) (s.memRead a) (t.memRead a) := by
  unfold State.memRead State.nextDraw
  rw [hR.config h, hR.draws h, hR.cell h]
  cases classify s.config a .data with
  | misaligned => exact .raised _
  | mmio =>
    dsimp only
    split
    · exact .ok ⟨rfl, hR.afterDraw h⟩
    · exact .refused _
  | outOfBounds => exact .raised _
  | storage => exact .ok ⟨rfl, h⟩

theorem ExecSim.memWrite (hR : ExecSim R) (h : R s t) (a v : Word) :
    AccessRel R (s.memWrite a v) (t.memWrite a v) := by
  unfold State.memWrite
  rw [hR.config h]
  cases classify s.config a .data with
  | misaligned => exact .raised _
  | mmio =>
    dsimp only
    split
    · exact .ok (hR.print h v)
    · exact .refused _
  | outOfBounds => exact .raised _
  | storage => exact .ok (hR.storeCell h _ v)

/-- Related accesses, with continuations that keep `R`, end the execute stage in related outcomes. -/
theorem ExecSim.elim (hR : ExecSim R) (h : R s t) {α : Type} {P : α → α → Prop} {x y : Access α}
    {k k' : α → Host.Outcome State Fault Refusal} (hxy : AccessRel P x y)
    (hk : ∀ a b, P a b → OutcomeRel R (k a) (k' b)) : OutcomeRel R (x.elim s k) (y.elim t k') := by
  cases hxy with
  | ok hab => exact hk _ _ hab
  | raised e => exact .next (hR.raise h e)
  | refused r => exact .refused r

theorem ExecSim.finishDivide (hR : ExecSim R) (h : R s t)
    (hw : ∀ x y, R (s.setHiLo x y) (t.setHiLo x y)) (rt : Reg) (qr : Option (Word × Word)) :
    OutcomeRel R (s.finishDivide rt qr) (t.finishDivide rt qr) := by
  cases qr with
  | none => exact .next (hR.raise h _)
  | some p => exact .next (hw _ _)

/-- The execute stage keeps a simulation. What it asks of HI and LO depends on the instruction: that a write of both keeps the
relation, where the instruction writes them, and that related states agree on HI or LO, where it reads it. -/
theorem exec_sim (hR : ExecSim R) (h : R s t) (i : Instr)
    (hw : writesHiLo i = true → ∀ x y, R (s.setHiLo x y) (t.setHiLo x y))
    (hhi : readsHi i = true → t.hi = s.hi) (hlo : readsLo i = true → t.lo = s.lo) :
    OutcomeRel R (exec i s) (exec i t) := by
  cases i with
  | add | sub | slt | sltu =>
    simp only [exec, execAdd, execSub, execSlt, execSltu, hR.reg h]
    exact .next (hR.writeReg h _ _)
  | mult | multu =>
    simp only [exec, execMult, execMultu, hR.reg h]
    exact .next (hw rfl _ _)
  | div | divu =>
    simp only [exec, execDiv, execDivu, hR.reg h]
    exact hR.finishDivide h (hw rfl) _ _
  | mfhi rd =>
    simp only [exec, execMfhi, hhi rfl]
    exact .next (hR.writeReg h _ _)
  | mflo rd =>
    simp only [exec, execMflo, hlo rfl]
    exact .next (hR.writeReg h _ _)
  | lis rd =>
    simp only [exec, execLis, hR.pc h, hR.config h]
    refine hR.elim h (.of_eq (hR.fetch32 h _)) ?_
    rintro w _ rfl
    exact .next (hR.setPc (hR.writeReg h _ _) _)
  | jr rs =>
    simp only [exec, execJr, hR.reg h]
    exact .next (hR.setPc h _)
  | jalr rs =>
    have hlink := hR.writeReg h linkRegister s.pc
    simp only [exec, execJalr, hR.pc h, hR.reg hlink]
    exact .next (hR.setPc hlink _)
  | lw rt rs imm =>
    simp only [exec, execLw, hR.effectiveAddress h]
    refine hR.elim h (hR.memRead h _) ?_
    rintro ⟨v, s'⟩ ⟨_, t'⟩ ⟨rfl, h'⟩
    exact .next (hR.writeReg h' _ _)
  | sw rt rs imm =>
    simp only [exec, execSw, hR.effectiveAddress h, hR.reg h]
    exact hR.elim h (hR.memWrite h _ _) fun _ _ h' => .next h'
  | beq | bne =>
    simp only [exec, execBeq, execBne, hR.reg h, hR.branchTarget h]
    split
    · exact .next (hR.setPc h _)
    · exact .next h

end exec

/-! ### The cycle keeps a simulation -/

section cycle

variable {R : State → State → Prop} {s t : State}

theorem StepSim.exec (hR : StepSim R) (h : R s t) (i : Instr) :
    OutcomeRel R (Machine.exec i s) (Machine.exec i t) :=
  exec_sim hR.toExecSim h i (fun _ => hR.setHiLo h) (fun _ => hR.hi h) (fun _ => hR.lo h)

theorem StepSim.haltConvention (hR : StepSim R) (h : R s t) (who : Caller) (i : Instr) :
    R (Machine.haltConvention who i s) (Machine.haltConvention who i t) := by
  unfold Machine.haltConvention
  split
  · exact hR.setRunning h false
  · exact h

theorem StepSim.finishInstr (hR : StepSim R) {pre pre' : State} (hpre : R pre pre') (who : Caller) (a : Word)
    (w : InstrWord) (i : Instr) {x y : Host.Outcome State Fault Refusal} (hxy : OutcomeRel R x y) :
    OutcomeRel R (Machine.finishInstr who pre a w i x) (Machine.finishInstr who pre' a w i y) := by
  cases hxy with
  | next h =>
    refine .next ?_
    rw [hR.fault h]
    split
    · exact h
    · exact hR.haltConvention (hR.commit h a w) who i
  | fault f => exact .fault f
  | refused r => exact .next (hR.markRefused hpre)

theorem StepSim.runWord (hR : StepSim R) {pre pre' : State} (hpre : R pre pre') (h : R s t) (who : Caller)
    (w : InstrWord) : OutcomeRel R (Machine.runWord who pre s w) (Machine.runWord who pre' t w) := by
  unfold Machine.runWord
  rw [hR.instrAddr h]
  cases decode w with
  | error e => exact .next (hR.raise h _)
  | ok i => exact hR.finishInstr hpre who _ w i (hR.exec h i)

theorem StepSim.advancePc (hR : StepSim R) (h : R s t) : R s.advancePc t.advancePc := by
  unfold State.advancePc
  rw [hR.pc h]
  exact hR.setPc h _

theorem step_sim (hR : StepSim R) (h : R s t) : OutcomeRel R (step s) (step t) := by
  unfold step Machine.cycle
  rw [hR.fault h, hR.refused h, hR.running h, hR.pc h, hR.fetch32 h]
  split_ifs
  · exact .fault _
  · exact .fault _
  · exact .fault _
  · cases s.fetch32 s.pc with
    | ok w => exact hR.runWord h (hR.advancePc h) .cycle w
    | raised e => exact .next (hR.raiseAt h e _)
    | refused r => exact .next (hR.markRefused h)

end cycle

/-! ### HI and LO (10_state.md R21) -/

/-- States that differ in HI only are related for every execute stage that leaves HI alone. -/
theorem execSim_hi (x : Word) : ExecSim fun s t => t = { s with hi := x } := by
  constructor <;> (rintro s _ rfl; intros; rfl)

/-- States that differ in LO only are related for every execute stage that leaves LO alone. -/
theorem execSim_lo (x : Word) : ExecSim fun s t => t = { s with lo := x } := by
  constructor <;> (rintro s _ rfl; intros; rfl)

theorem exec_keeps_hiLo {i : Instr} {s t : State} (hi : writesHiLo i = false) (h : exec i s = .next t) :
    SameHiLo s t := by
  cases exec_shape h with
  | wroteHiLo _ _ hh => exact absurd hh (by simp [hi])
  | _ => exact ⟨rfl, rfl⟩

/-- An execute stage that changes the fault record has raised, and so left HI and LO. -/
theorem exec_keeps_hiLo_of_raised {i : Instr} {s t : State} (h : exec i s = .next t)
    (hf : t.fault ≠ s.fault) : SameHiLo s t := by
  rcases exec_fault h with hsame | ⟨e, rfl⟩
  · exact absurd hsame hf
  · exact ⟨rfl, rfl⟩

/-- A divide that does not raise forgets what HI and LO held. -/
theorem State.finishDivide_setHiLo (s : State) (rt : Reg) {qr : Option (Word × Word)} (h : qr ≠ none) (x y : Word) :
    (s.setHiLo x y).finishDivide rt qr = s.finishDivide rt qr := by
  cases qr with
  | none => exact absurd rfl h
  | some p => rfl

/-- A multiply or a divide by a nonzero divisor does the same whatever HI and LO held. -/
theorem exec_setHiLo {i : Instr} {s : State} (hi : writesHiLo i = true)
    (hd : ∀ q r, (i = .div q r ∨ i = .divu q r) → s.reg r ≠ 0) (x y : Word) :
    exec i (s.setHiLo x y) = exec i s := by
  cases i with
  | mult | multu => rfl
  | div rs rt => exact s.finishDivide_setHiLo rt (mt divideS_eq_none.mp (hd rs rt (.inl rfl))) x y
  | divu rs rt => exact s.finishDivide_setHiLo rt (mt divideU_eq_none.mp (hd rs rt (.inr rfl))) x y
  | _ => simp [writesHiLo] at hi

theorem exec_with_hi {i : Instr} (hw : writesHiLo i = false) (hr : readsHi i = false) (s : State) (x : Word) :
    exec i { s with hi := x } = mapNext (fun t => { t with hi := x }) (exec i s) :=
  (exec_sim (execSim_hi x) rfl i (by simp [hw]) (by simp [hr]) (fun _ => rfl)).eq_mapNext

theorem exec_with_lo {i : Instr} (hw : writesHiLo i = false) (hr : readsLo i = false) (s : State) (x : Word) :
    exec i { s with lo := x } = mapNext (fun t => { t with lo := x }) (exec i s) :=
  (exec_sim (execSim_lo x) rfl i (by simp [hw]) (fun _ => rfl) (by simp [hr])).eq_mapNext

/-- Settles O47: the writers by the shapes of an execute stage, the readers by comparing two execute stages. -/
theorem hiLoReadersAndWriters : Obligations.HiLoReadersAndWriters := by
  intro i s t h
  refine ⟨fun hw => ?_, fun _ hf => ?_, fun hw hd x y => ?_, fun hw hr x => ?_, fun hw hr x => ?_⟩
  · obtain ⟨hhi, hlo⟩ := exec_keeps_hiLo hw h
    exact ⟨hhi, hlo⟩
  · obtain ⟨hhi, hlo⟩ := exec_keeps_hiLo_of_raised h hf
    exact ⟨hhi, hlo⟩
  · exact (exec_setHiLo hw hd x y).trans h
  · rw [exec_with_hi hw hr, h]
    rfl
  · rw [exec_with_lo hw hr, h]
    rfl

/-! ### The zero register (10_state.md R11) -/

/-- An instruction whose destination is `$0` leaves every general register as it was. -/
theorem exec_sameRegs_of_dest_zero {i : Instr} {s t : State} (hi : writesReg i = some 0) (h : exec i s = .next t) :
    SameRegs s t := by
  intro r
  cases exec_shape h with
  | wroteReg rd v hr | wroteDraw rd v hr | wroteRegPc rd v p hr =>
    obtain rfl : rd = 0 := by simpa [hi] using hr.symm
    simp
  | _ => rfl

theorem hostWriteReg_eq (s : State) {index : Int} {r : Reg} (h : hostRegister? index = some r) (v : Word) :
    hostWriteReg s index v = .next (s.writeReg r v, .done) := by
  simp [hostWriteReg, h]

theorem hostWriteReg_zero (s : State) (v : Word) : hostWriteReg s 0 v = .next (s, .done) := by
  rw [hostWriteReg_eq s (r := 0) rfl, State.writeReg_zero]

/-- Settles O48, from the register rules, the host's register write and the shapes of an execute stage. -/
theorem zeroRegisterIsHardWired : Obligations.ZeroRegisterIsHardWired := fun s =>
  ⟨s.reg_zero, s.writeReg_zero, hostWriteReg_zero s, fun _ _ => exec_sameRegs_of_dest_zero⟩

/-! ### The mode tag (10_state.md R27) -/

theorem execSim_executionMode (m : ExecMode) : ExecSim fun s t => t = { s with executionMode := m } := by
  constructor <;> (rintro s _ rfl; intros; rfl)

/-- A cycle reads `executionMode` nowhere and writes it nowhere. -/
theorem stepSim_executionMode (m : ExecMode) : StepSim fun s t => t = { s with executionMode := m } := by
  constructor
  case toExecSim => exact execSim_executionMode m
  all_goals (rintro s _ rfl; intros; rfl)

/-- Settles O49: states that differ in the tag only are related, and a cycle keeps that. -/
theorem executionModeChangesNothing : Obligations.ExecutionModeChangesNothing := fun _ m =>
  (step_sim (stepSim_executionMode m) rfl).eq_mapNext

end Sys2Proof.Machine

/-!
PROOFS. Family 30_encoding.md: the words the I-type map has no instruction for (R72).
-/

namespace Sys2Proof.Machine

/-! ### Decode failures that name an opcode -/

/-- The dispatch on a nonzero opcode (R68). -/
theorem decode_of_opcode_ne_zero {w : InstrWord} (h : opcodeField w ≠ 0#6) : decode w = decodeOpcode w :=
  if_neg h

/-- An opcode outside the I-type map falls through its four rows to the failure (R70, R72). -/
theorem decodeOpcode_of_unknown {w : InstrWord}
    (h : opcodeField w ∉ ([0x23, 0x2B, 0x04, 0x05] : List (BitVec 6))) :
    decodeOpcode w = .error ⟨.opcode, opcodeField w⟩ := by
  simp only [List.mem_cons, List.not_mem_nil, or_false, not_or] at h
  obtain ⟨hlw, hsw, hbeq, hbne⟩ := h
  unfold decodeOpcode
  split
  · exact absurd ‹_› hlw
  · exact absurd ‹_› hsw
  · exact absurd ‹_› hbeq
  · exact absurd ‹_› hbne
  · rfl

theorem decode_of_unknown_opcode {w : InstrWord} (h0 : opcodeField w ≠ 0)
    (h : opcodeField w ∉ ([0x23, 0x2B, 0x04, 0x05] : List (BitVec 6))) :
    decode w = .error ⟨.opcode, opcodeField w⟩ :=
  (decode_of_opcode_ne_zero h0).trans (decodeOpcode_of_unknown h)

/-- The jump opcodes of MIPS are in no row of the map, so no bit of the jump-address field is looked at (R72). -/
theorem decode_of_jump_opcode {w : InstrWord} (h : opcodeField w = 0x02 ∨ opcodeField w = 0x03) :
    decode w = .error ⟨.opcode, opcodeField w⟩ := by
  apply decode_of_unknown_opcode <;> rcases h with h | h <;> rw [h] <;> decide

/-- Of the 63 nonzero opcodes the map leaves out all but its four, each tried with the other bits 0. -/
theorem unknown_opcodes_count :
    ((List.range 64).filter fun k =>
      k ≠ 0 ∧ decode (BitVec.ofNat 32 (k * 2 ^ 26)) = .error ⟨.opcode, BitVec.ofNat 6 k⟩).length = 59 := by
  decide

/-- Settles O6: the dispatch and the map's fall-through, the two jump opcodes being instances, and a count of the map. -/
theorem unknownOpcodeRejected : Obligations.UnknownOpcodeRejected :=
  ⟨fun _ => decode_of_unknown_opcode, unknown_opcodes_count, fun _ => decode_of_jump_opcode⟩

end Sys2Proof.Machine

/-!
PROOFS. Family 42_integer_alu.md (R103 to R106). Each of the four instructions is an R-type row that leaves the state of one
register write. What differs is the value written, so each operation of the arithmetic unit (40_arithmetic_unit.md R82 to R84) is
given its arithmetic form once.
-/

namespace Sys2Proof.Machine

/-! ### The values (40_arithmetic_unit.md R82 to R84) -/

theorem addWords_eq_ofNat (a b : Word) : addWords a b = BitVec.ofNat 128 ((a.toNat + b.toNat) % 2 ^ 128) := by
  apply BitVec.eq_of_toNat_eq
  rw [addWords, BitVec.toNat_add, BitVec.toNat_ofNat, Nat.mod_mod]

theorem subWords_eq_ofInt (a b : Word) : subWords a b = BitVec.ofInt 128 (((a.toNat : Int) - b.toNat) % 2 ^ 128) := by
  apply BitVec.eq_of_toNat_eq
  rw [subWords, BitVec.toNat_sub, BitVec.toNat_ofInt]
  omega

/-- The signed comparison gives -1 exactly where the signed reading of the first operand is below that of the second. -/
theorem compareS_eq_neg_one_iff {a b : Word} : compareS a b = -1 ↔ a.toInt < b.toInt := by
  rw [compareS, Int.sign_eq_neg_one_iff_neg, sub_neg]

/-- The unsigned comparison gives -1 exactly where the unsigned reading of the first operand is below that of the second. -/
theorem compareU_eq_neg_one_iff {a b : Word} : compareU a b = -1 ↔ a.toNat < b.toNat := by
  rw [compareU, Int.sign_eq_neg_one_iff_neg, sub_neg, Int.ofNat_lt]

theorem setOnLess_compareS (a b : Word) : setOnLess (compareS a b) = if a.toInt < b.toInt then 1 else 0 := by
  simp only [setOnLess, compareS_eq_neg_one_iff]

theorem setOnLess_compareU (a b : Word) : setOnLess (compareU a b) = if a.toNat < b.toNat then 1 else 0 := by
  simp only [setOnLess, compareU_eq_neg_one_iff]

/-! ### Decoding and the execute stage, by instruction (42_integer_alu.md R103 to R106) -/

/-- An execute stage that ends in one register write has that write as its only effect. -/
theorem completesWriting_of_exec_eq {i : Instr} {s : State} {rd : Reg} {v : Word}
    (h : exec i s = .next (s.writeReg rd v)) : CompletesWriting i s rd v :=
  ⟨s.writeReg rd v, h, fun r => s.writeReg_reg rd r v, rfl,
    ⟨rfl, rfl⟩, ⟨rfl, rfl, rfl, rfl, rfl, rfl, rfl⟩, ⟨fun _ => rfl, rfl⟩, ⟨rfl, rfl⟩⟩

section instructions

variable (s : State) (rd rs rt : Reg) (shamt : BitVec 5)

theorem decode_add : decode (encodeR rs rt rd shamt 0x20) = .ok (.add rd rs rt) := by
  simp [decode_encodeR, decodeFunction]

theorem decode_sub : decode (encodeR rs rt rd shamt 0x22) = .ok (.sub rd rs rt) := by
  simp [decode_encodeR, decodeFunction]

theorem decode_slt : decode (encodeR rs rt rd shamt 0x2A) = .ok (.slt rd rs rt) := by
  simp [decode_encodeR, decodeFunction]

theorem decode_sltu : decode (encodeR rs rt rd shamt 0x2B) = .ok (.sltu rd rs rt) := by
  simp [decode_encodeR, decodeFunction]

theorem exec_add : exec (.add rd rs rt) s = .next (s.writeReg rd (addWords (s.reg rs) (s.reg rt))) := rfl

theorem exec_sub : exec (.sub rd rs rt) s = .next (s.writeReg rd (subWords (s.reg rs) (s.reg rt))) := rfl

theorem exec_slt : exec (.slt rd rs rt) s = .next (s.writeReg rd (setOnLess (compareS (s.reg rs) (s.reg rt)))) := rfl

theorem exec_sltu : exec (.sltu rd rs rt) s = .next (s.writeReg rd (setOnLess (compareU (s.reg rs) (s.reg rt)))) := rfl

end instructions

/-! ### The effects -/

/-- Settles O7: add's row, and its execute stage as the register write of the sum. -/
theorem addEffect : Obligations.AddEffect := fun s rd rs rt shamt =>
  ⟨decode_add rd rs rt shamt, completesWriting_of_exec_eq (by rw [exec_add, addWords_eq_ofNat])⟩

/-- Settles O8: sub's row, and its execute stage as the register write of the difference. -/
theorem subEffect : Obligations.SubEffect := fun s rd rs rt shamt =>
  ⟨decode_sub rd rs rt shamt, completesWriting_of_exec_eq (by rw [exec_sub, subWords_eq_ofInt])⟩

/-- Settles O9: slt's row, and its execute stage as the register write of the signed comparison. -/
theorem sltEffect : Obligations.SltEffect := fun s rd rs rt shamt =>
  ⟨decode_slt rd rs rt shamt, completesWriting_of_exec_eq (by rw [exec_slt, setOnLess_compareS])⟩

/-- Settles O10: sltu's row, and its execute stage as the register write of the unsigned comparison. -/
theorem sltuEffect : Obligations.SltuEffect := fun s rd rs rt shamt =>
  ⟨decode_sltu rd rs rt shamt, completesWriting_of_exec_eq (by rw [exec_sltu, setOnLess_compareU])⟩

end Sys2Proof.Machine

/-!
PROOFS. Family 43_multiply_divide.md: the move from LO (R112), and the document's two properties of the multiply and divide
results (R113). The halves of a product are put together again once, for both multiplies. The magnitudes that `divide_s` divides
(40_arithmetic_unit.md R90) are the truncated signed division of the operands, so its results are the library's `sdiv` and `srem`.
-/

namespace Sys2Proof.Machine

/-! ### Products (40_arithmetic_unit.md R86, R88) -/

/-- The two halves of a product below 2^256 make it up again. -/
theorem splitProduct_recombine {p : Nat} (h : p < 2 ^ 256) :
    (splitProduct p).1.toNat * 2 ^ 128 + (splitProduct p).2.toNat = p := by
  simp only [splitProduct, BitVec.toNat_ofNat]
  omega

theorem multiplyU_recombine (a b : Word) :
    (multiplyU a b).1.toNat * 2 ^ 128 + (multiplyU a b).2.toNat = a.toNat * b.toNat :=
  splitProduct_recombine (calc
    a.toNat * b.toNat < 2 ^ 128 * 2 ^ 128 := Nat.mul_lt_mul'' a.isLt b.isLt
    _ = 2 ^ 256 := by norm_num)

theorem tc256_eq_emod (i : Int) : (tc256 i : Int) = i % 2 ^ 256 :=
  Int.toNat_of_nonneg (Int.emod_nonneg i (by norm_num))

theorem tc256_lt (i : Int) : tc256 i < 2 ^ 256 := by
  have h : (tc256 i : Int) < 2 ^ 256 := tc256_eq_emod i ▸ Int.emod_lt_of_pos i (by norm_num)
  exact_mod_cast h

/-- HI:LO after a signed multiply is the signed product modulo 2^256. -/
theorem multiplyS_recombine (a b : Word) :
    (((multiplyS a b).1.toNat * 2 ^ 128 + (multiplyS a b).2.toNat : Nat) : Int) = (a.toInt * b.toInt) % 2 ^ 256 := by
  rw [multiplyS, splitProduct_recombine (tc256_lt _), tc256_eq_emod]

/-! ### Quotients and remainders (40_arithmetic_unit.md R89, R90) -/

theorem divideU_of_ne_zero {a b : Word} (h : b ≠ 0) : divideU a b = some (a / b, a % b) := by
  rw [divideU, if_neg h, BitVec.udiv_def, BitVec.umod_def]

/-- A magnitude as R90 takes it: the operand, negated where it is negative. -/
theorem magnitude_eq_ite (x : Int) : (x.natAbs : Int) = if x < 0 then -x else x := by
  split_ifs with h
  · exact Int.ofNat_natAbs_of_nonpos h.le
  · exact Int.natAbs_of_nonneg (not_lt.mp h)

/-- The quotient of the magnitudes, negative where the signs differ, is the quotient truncated toward zero. -/
theorem quotient_of_magnitudes (x y : Int) :
    (if (decide (x < 0)).xor (decide (y < 0)) then -((x.natAbs / y.natAbs : Nat) : Int) else (x.natAbs / y.natAbs : Nat))
      = x.tdiv y := by
  rw [Int.ofNat_tdiv, magnitude_eq_ite x, magnitude_eq_ite y]
  by_cases hx : x < 0
  · by_cases hy : y < 0 <;> simp [hx, hy, Int.neg_tdiv]
  · by_cases hy : y < 0 <;> simp [hx, hy]

/-- The remainder of the magnitudes, with the dividend's sign, is the remainder of truncated division. -/
theorem remainder_of_magnitudes (x y : Int) :
    (if x < 0 then -((x.natAbs % y.natAbs : Nat) : Int) else (x.natAbs % y.natAbs : Nat)) = x.tmod y := by
  have divisor_sign (z : Int) : z.tmod (if y < 0 then -y else y) = z.tmod y := by
    split_ifs
    · exact Int.tmod_neg z y
    · rfl
  rw [Int.ofNat_tmod, magnitude_eq_ite x, magnitude_eq_ite y, divisor_sign]
  split_ifs
  · rw [Int.neg_tmod, neg_neg]
  · rfl

theorem wrap_tdiv (a b : Word) : wrap (a.toInt.tdiv b.toInt) = a.sdiv b := by
  rw [← BitVec.toInt_inj, wrap, BitVec.toInt_ofInt, BitVec.toInt_sdiv]

theorem wrap_tmod (a b : Word) : wrap (a.toInt.tmod b.toInt) = a.srem b := by
  rw [← BitVec.toInt_srem, wrap, BitVec.ofInt_toInt]

theorem divideS_of_ne_zero {a b : Word} (h : b ≠ 0) : divideS a b = some (a.sdiv b, a.srem b) := by
  rw [divideS, if_neg h]
  simp only [quotient_of_magnitudes, remainder_of_magnitudes, wrap_tdiv, wrap_tmod]

/-- The one overflow case (R109): -2^127 divided by -1. -/
theorem sdiv_srem_overflow {a b : Word} (ha : a.toInt = -2 ^ 127) (hb : b.toInt = -1) : a.sdiv b = a ∧ a.srem b = 0 := by
  have ea : a = BitVec.intMin 128 := BitVec.eq_of_toInt_eq (ha.trans (by decide))
  have eb : b = -1 := BitVec.eq_of_toInt_eq (hb.trans (by decide))
  subst ea eb
  decide

/-- Outside the overflow case the signed quotient and remainder make the dividend up again over the integers. -/
theorem sdiv_mul_add_srem {a b : Word} (h : ¬ (a.toInt = -2 ^ 127 ∧ b.toInt = -1)) :
    (a.sdiv b).toInt * b.toInt + (a.srem b).toInt = a.toInt := by
  have hne : a ≠ BitVec.intMin 128 ∨ b ≠ -1#128 := by
    by_contra! e
    obtain ⟨rfl, rfl⟩ := e
    exact h (by decide)
  rw [BitVec.toInt_sdiv_of_ne_or_ne a b hne, BitVec.toInt_srem, Int.tdiv_mul_add_tmod]

/-- A signed remainder that is not 0 has the dividend's sign (90_conflicts.md C6). -/
theorem srem_sign (a b : Word) : a.srem b = 0 ∨ (a.srem b).toInt.sign = a.toInt.sign := by
  by_cases hd : b.toInt ∣ a.toInt
  · left
    rw [← BitVec.toInt_inj, BitVec.toInt_srem, Int.tmod_eq_zero_of_dvd hd]
    rfl
  · right
    rw [BitVec.toInt_srem, Int.sign_tmod, if_neg hd]

theorem srem_natAbs_lt (a : Word) {b : Word} (h : b ≠ 0) : (a.srem b).toInt.natAbs < b.toInt.natAbs := by
  have hb : b.toInt ≠ (0 : Word).toInt := BitVec.toInt_ne.mpr h
  rw [BitVec.toInt_srem, Int.natAbs_tmod]
  exact Nat.mod_lt _ (Int.natAbs_pos.mpr hb)

/-! ### The properties of R113 -/

/-- `divide_u`: quotient and remainder make the dividend up again, with a remainder below the divisor. -/
theorem divideU_property (a : Word) {b : Word} (h : b ≠ 0) :
    ∃ q r, divideU a b = some (q, r) ∧ q.toNat * b.toNat + r.toNat = a.toNat ∧ r.toNat < b.toNat := by
  have hb : 0 < b.toNat := Nat.pos_of_ne_zero fun e => h (BitVec.eq_of_toNat_eq e)
  refine ⟨a / b, a % b, divideU_of_ne_zero h, ?_, ?_⟩
  · rw [BitVec.toNat_udiv, BitVec.toNat_umod, Nat.div_add_mod']
  · rw [BitVec.toNat_umod]
    exact Nat.mod_lt _ hb

/-- `divide_s`: the same over the integers, the overflow case wrapping, with the remainder's sign and bound. -/
theorem divideS_property (a : Word) {b : Word} (h : b ≠ 0) :
    ∃ q r, divideS a b = some (q, r)
      ∧ (if a.toInt = -2 ^ 127 ∧ b.toInt = -1 then q = a ∧ r = 0 else q.toInt * b.toInt + r.toInt = a.toInt)
      ∧ (r = 0 ∨ r.toInt.sign = a.toInt.sign) ∧ r.toInt.natAbs < b.toInt.natAbs := by
  refine ⟨a.sdiv b, a.srem b, divideS_of_ne_zero h, ?_, srem_sign a b, srem_natAbs_lt a h⟩
  split_ifs with hov
  · obtain ⟨ha, hb⟩ := hov
    exact sdiv_srem_overflow ha hb
  · exact sdiv_mul_add_srem hov

/-- Settles O18: the products put together from their halves, and each divide's results as a quotient and a remainder. -/
theorem multiplyDivideProperties : Obligations.MultiplyDivideProperties := fun a b =>
  ⟨multiplyU_recombine a b,
    Int.emod_eq_emod_iff_emod_sub_eq_zero.mp (by rw [multiplyS_recombine, Int.emod_emod]),
    divideU_property a, divideS_property a, divideU_eq_none.mpr rfl, divideS_eq_none.mpr rfl⟩

/-! ### The move from LO (R112) -/

theorem decode_mflo (rd rs rt : Reg) (shamt : BitVec 5) : decode (encodeR rs rt rd shamt 0x12) = .ok (.mflo rd) := by
  simp [decode_encodeR, decodeFunction]

theorem exec_mflo (s : State) (rd : Reg) : exec (.mflo rd) s = .next (s.writeReg rd s.lo) := rfl

/-- Settles O17: mflo's row, and its execute stage as the register write of LO. -/
theorem mfloEffect : Obligations.MfloEffect := fun s rs rt rd shamt =>
  ⟨decode_mflo rd rs rt shamt, completesWriting_of_exec_eq (exec_mflo s rd)⟩

end Sys2Proof.Machine

/-!
PROOFS. Family 30_encoding.md: encoder and decoder (R65, R67 to R71, R77). The words that decode to an instruction are the words of
its table row, with the ignored fields free (`RowWord`): that is said once, in both directions, and what masks and encoder do is read
off the layouts.
-/

namespace Sys2Proof.Machine

/-! ### The rows of the table (30_encoding.md R69, R70) -/

section rows

variable (rd rs rt : Reg) (shamt : BitVec 5) (imm : BitVec 16)

theorem decode_mult : decode (encodeR rs rt rd shamt 0x18) = .ok (.mult rs rt) := by
  simp [decode_encodeR, decodeFunction]

theorem decode_multu : decode (encodeR rs rt rd shamt 0x19) = .ok (.multu rs rt) := by
  simp [decode_encodeR, decodeFunction]

theorem decode_div : decode (encodeR rs rt rd shamt 0x1A) = .ok (.div rs rt) := by
  simp [decode_encodeR, decodeFunction]

theorem decode_divu : decode (encodeR rs rt rd shamt 0x1B) = .ok (.divu rs rt) := by
  simp [decode_encodeR, decodeFunction]

theorem decode_mfhi : decode (encodeR rs rt rd shamt 0x10) = .ok (.mfhi rd) := by
  simp [decode_encodeR, decodeFunction]

theorem decode_lis : decode (encodeR rs rt rd shamt 0x14) = .ok (.lis rd) := by
  simp [decode_encodeR, decodeFunction]

theorem decode_jr : decode (encodeR rs rt rd shamt 0x08) = .ok (.jr rs) := by
  simp [decode_encodeR, decodeFunction]

theorem decode_jalr : decode (encodeR rs rt rd shamt 0x09) = .ok (.jalr rs) := by
  simp [decode_encodeR, decodeFunction]

theorem decode_lw : decode (encodeI 0x23 rs rt imm) = .ok (.lw rt rs imm) := by
  simp [decode_encodeI, decodeOpcode]

theorem decode_sw : decode (encodeI 0x2B rs rt imm) = .ok (.sw rt rs imm) := by
  simp [decode_encodeI, decodeOpcode]

theorem decode_beq : decode (encodeI 0x04 rs rt imm) = .ok (.beq rs rt imm) := by
  simp [decode_encodeI, decodeOpcode]

theorem decode_bne : decode (encodeI 0x05 rs rt imm) = .ok (.bne rs rt imm) := by
  simp [decode_encodeI, decodeOpcode]

end rows

/-- The words of an instruction's row: opcode and function as in the table, the fields it uses at its operands, and the fields it
ignores at any value (R65, R67). -/
inductive RowWord : InstrWord → Instr → Prop where
  | add (rd rs rt : Reg) (shamt : BitVec 5) : RowWord (encodeR rs rt rd shamt 0x20) (.add rd rs rt)
  | sub (rd rs rt : Reg) (shamt : BitVec 5) : RowWord (encodeR rs rt rd shamt 0x22) (.sub rd rs rt)
  | slt (rd rs rt : Reg) (shamt : BitVec 5) : RowWord (encodeR rs rt rd shamt 0x2A) (.slt rd rs rt)
  | sltu (rd rs rt : Reg) (shamt : BitVec 5) : RowWord (encodeR rs rt rd shamt 0x2B) (.sltu rd rs rt)
  | mult (rd rs rt : Reg) (shamt : BitVec 5) : RowWord (encodeR rs rt rd shamt 0x18) (.mult rs rt)
  | multu (rd rs rt : Reg) (shamt : BitVec 5) : RowWord (encodeR rs rt rd shamt 0x19) (.multu rs rt)
  | div (rd rs rt : Reg) (shamt : BitVec 5) : RowWord (encodeR rs rt rd shamt 0x1A) (.div rs rt)
  | divu (rd rs rt : Reg) (shamt : BitVec 5) : RowWord (encodeR rs rt rd shamt 0x1B) (.divu rs rt)
  | mfhi (rd rs rt : Reg) (shamt : BitVec 5) : RowWord (encodeR rs rt rd shamt 0x10) (.mfhi rd)
  | mflo (rd rs rt : Reg) (shamt : BitVec 5) : RowWord (encodeR rs rt rd shamt 0x12) (.mflo rd)
  | lis (rd rs rt : Reg) (shamt : BitVec 5) : RowWord (encodeR rs rt rd shamt 0x14) (.lis rd)
  | jr (rd rs rt : Reg) (shamt : BitVec 5) : RowWord (encodeR rs rt rd shamt 0x08) (.jr rs)
  | jalr (rd rs rt : Reg) (shamt : BitVec 5) : RowWord (encodeR rs rt rd shamt 0x09) (.jalr rs)
  | lw (rs rt : Reg) (imm : BitVec 16) : RowWord (encodeI 0x23 rs rt imm) (.lw rt rs imm)
  | sw (rs rt : Reg) (imm : BitVec 16) : RowWord (encodeI 0x2B rs rt imm) (.sw rt rs imm)
  | beq (rs rt : Reg) (imm : BitVec 16) : RowWord (encodeI 0x04 rs rt imm) (.beq rs rt imm)
  | bne (rs rt : Reg) (imm : BitVec 16) : RowWord (encodeI 0x05 rs rt imm) (.bne rs rt imm)

theorem RowWord.decode_eq {w : InstrWord} {i : Instr} (h : RowWord w i) : decode w = .ok i := by
  cases h with
  | add => exact decode_add ..
  | sub => exact decode_sub ..
  | slt => exact decode_slt ..
  | sltu => exact decode_sltu ..
  | mult => exact decode_mult ..
  | multu => exact decode_multu ..
  | div => exact decode_div ..
  | divu => exact decode_divu ..
  | mfhi => exact decode_mfhi ..
  | mflo => exact decode_mflo ..
  | lis => exact decode_lis ..
  | jr => exact decode_jr ..
  | jalr => exact decode_jalr ..
  | lw => exact decode_lw ..
  | sw => exact decode_sw ..
  | beq => exact decode_beq ..
  | bne => exact decode_bne ..

/-- A word is the R-type layout of some fields, or its opcode is nonzero and it is the I-type layout of some (R63, R64). -/
theorem layout_cases (w : InstrWord) :
    (∃ rs rt rd shamt fn, w = encodeR rs rt rd shamt fn) ∨ (∃ op rs rt imm, op ≠ 0#6 ∧ w = encodeI op rs rt imm) := by
  by_cases h : opcodeField w = 0#6
  · exact .inl ⟨_, _, _, _, _, (encodeR_fields w h).symm⟩
  · exact .inr ⟨_, _, _, _, h, (encodeI_fields w).symm⟩

theorem rowWord_of_decodeFunction {rs rt rd : Reg} {shamt : BitVec 5} {fn : BitVec 6} {i : Instr}
    (h : decodeFunction (encodeR rs rt rd shamt fn) = .ok i) : RowWord (encodeR rs rt rd shamt fn) i := by
  simp only [decodeFunction, functionField_encodeR, rsField_encodeR, rtField_encodeR, rdField_encodeR] at h
  split at h <;> cases h
  · exact .add ..
  · exact .sub ..
  · exact .mult ..
  · exact .multu ..
  · exact .div ..
  · exact .divu ..
  · exact .mfhi ..
  · exact .mflo ..
  · exact .lis ..
  · exact .jr ..
  · exact .jalr ..
  · exact .slt ..
  · exact .sltu ..

theorem rowWord_of_decodeOpcode {op : BitVec 6} {rs rt : Reg} {imm : BitVec 16} {i : Instr}
    (h : decodeOpcode (encodeI op rs rt imm) = .ok i) : RowWord (encodeI op rs rt imm) i := by
  simp only [decodeOpcode, opcodeField_encodeI, rsField_encodeI, rtField_encodeI, immField_encodeI] at h
  split at h <;> cases h
  · exact .lw ..
  · exact .sw ..
  · exact .beq ..
  · exact .bne ..

/-- The words that decode to an instruction are exactly the words of its row. -/
theorem decode_eq_ok_iff {w : InstrWord} {i : Instr} : decode w = .ok i ↔ RowWord w i := by
  refine ⟨fun h => ?_, RowWord.decode_eq⟩
  rcases layout_cases w with ⟨rs, rt, rd, shamt, fn, rfl⟩ | ⟨op, rs, rt, imm, hop, rfl⟩
  · exact rowWord_of_decodeFunction (decode_encodeR rs rt rd shamt fn ▸ h)
  · exact rowWord_of_decodeOpcode (decode_encodeI op rs rt imm hop ▸ h)

/-- The encoder's word is one of the instruction's row. -/
theorem rowWord_encode (i : Instr) : RowWord (encode i) i := by
  cases i with
  | add => exact .add ..
  | sub => exact .sub ..
  | slt => exact .slt ..
  | sltu => exact .sltu ..
  | mult => exact .mult ..
  | multu => exact .multu ..
  | div => exact .div ..
  | divu => exact .divu ..
  | mfhi => exact .mfhi ..
  | mflo => exact .mflo ..
  | lis => exact .lis ..
  | jr => exact .jr ..
  | jalr => exact .jalr ..
  | lw => exact .lw ..
  | sw => exact .sw ..
  | beq => exact .beq ..
  | bne => exact .bne ..

/-- Settles O2: the encoder writes a word of the row, and the decoder reads every such word. -/
theorem decodeOfEncode : Obligations.DecodeOfEncode := fun i => (rowWord_encode i).decode_eq

/-! ### Masks (30_encoding.md R65, R67, R77) -/

theorem regBits_and_fill (r : Reg) (keep : Bool) : regBits r &&& BitVec.fill 5 keep = regBits (if keep then r else 0) := by
  cases keep
  · exact BitVec.and_zero
  · exact BitVec.and_allOnes

theorem layout_and_layout (a a' f f' : BitVec 6) (b b' c c' d d' e e' : BitVec 5) :
    a ++ b ++ c ++ d ++ e ++ f &&& a' ++ b' ++ c' ++ d' ++ e' ++ f'
      = (a &&& a') ++ (b &&& b') ++ (c &&& c') ++ (d &&& d') ++ (e &&& e') ++ (f &&& f') := by
  simp only [BitVec.and_append]

/-- A mask that keeps or clears each register field of the R-type layout, and clears shamt. -/
theorem encodeR_and_mask (rs rt rd : Reg) (shamt : BitVec 5) (fn : BitVec 6) (keepRs keepRt keepRd : Bool) :
    encodeR rs rt rd shamt fn &&& (BitVec.allOnes 6 ++ BitVec.fill 5 keepRs ++ BitVec.fill 5 keepRt ++ BitVec.fill 5 keepRd
        ++ 0#5 ++ BitVec.allOnes 6)
      = encodeR (if keepRs then rs else 0) (if keepRt then rt else 0) (if keepRd then rd else 0) 0 fn := by
  refine (layout_and_layout ..).trans ?_
  simp only [encodeR, regBits_and_fill, BitVec.and_zero, BitVec.and_allOnes]
  rfl

/-- Masking a word of the row by the used bits clears the ignored fields, which is what the encoder writes (R77). -/
theorem RowWord.and_usedBits {w : InstrWord} {i : Instr} (h : RowWord w i) : w &&& usedBits i = encode i := by
  cases h with
  | add | sub | slt | sltu => exact encodeR_and_mask _ _ _ _ _ true true true
  | mult | multu | div | divu => exact encodeR_and_mask _ _ _ _ _ true true false
  | mfhi | mflo | lis => exact encodeR_and_mask _ _ _ _ _ false false true
  | jr | jalr => exact encodeR_and_mask _ _ _ _ _ true false false
  | lw | sw | beq | bne => exact BitVec.and_allOnes

/-- Settles O3: a word that decodes is one of the row, and masking it gives the encoder's word. -/
theorem encodeOfDecodeKeepsUsedBits : Obligations.EncodeOfDecodeKeepsUsedBits := fun _ _ h =>
  (decode_eq_ok_iff.mp h).and_usedBits.symm

/-! ### The selecting bits (30_encoding.md R65) -/

theorem RowWord.and_selectMask {w : InstrWord} {i : Instr} (h : RowWord w i) : w &&& selectMask i = selectValue i := by
  cases h with
  | add | sub | slt | sltu | mult | multu | div | divu | mfhi | mflo | lis | jr | jalr =>
    exact Laws.EncodingMatchesTable.select_encodeR ..
  | lw | sw | beq | bne => exact Laws.EncodingMatchesTable.select_encodeI ..

theorem opcodeField_setWidth : ∀ fn : BitVec 6, opcodeField (fn.setWidth 32) = 0#6 := by decide

theorem functionField_setWidth : ∀ fn : BitVec 6, functionField (fn.setWidth 32) = fn := by decide

theorem opcodeField_shiftLeft : ∀ op : BitVec 6, opcodeField (op.setWidth 32 <<< 26) = op := by decide

/-- A word whose opcode and function bits are those of `fn` under opcode 0 is an R-type word of that function. -/
theorem eq_encodeR_of_select {w : InstrWord} {fn : BitVec 6} (h : w &&& 0xFC00003F#32 = fn.setWidth 32) :
    w = encodeR (rsField w) (rtField w) (rdField w) (shamtField w) fn := by
  have hop : opcodeField w = 0#6 := calc
    opcodeField w = opcodeField w &&& opcodeField 0xFC00003F#32 := BitVec.and_allOnes.symm
    _ = opcodeField (fn.setWidth 32) := by rw [← h]; exact BitVec.extractLsb'_and.symm
    _ = 0#6 := opcodeField_setWidth fn
  have hfn : functionField w = fn := calc
    functionField w = functionField w &&& functionField 0xFC00003F#32 := BitVec.and_allOnes.symm
    _ = functionField (fn.setWidth 32) := by rw [← h]; exact BitVec.extractLsb'_and.symm
    _ = fn := functionField_setWidth fn
  exact hfn ▸ (encodeR_fields w hop).symm

/-- A word whose opcode bits are those of `op` is an I-type word of that opcode. -/
theorem eq_encodeI_of_select {w : InstrWord} {op : BitVec 6} (h : w &&& 0xFC000000#32 = op.setWidth 32 <<< 26) :
    w = encodeI op (rsField w) (rtField w) (immField w) := by
  have hop : opcodeField w = op := calc
    opcodeField w = opcodeField w &&& opcodeField 0xFC000000#32 := BitVec.and_allOnes.symm
    _ = opcodeField (op.setWidth 32 <<< 26) := by rw [← h]; exact BitVec.extractLsb'_and.symm
    _ = op := opcodeField_shiftLeft op
  exact hop ▸ (encodeI_fields w).symm

/-- Two instructions of the same row of the table. -/
structure SameRow (i j : Instr) : Prop where
  selectMask : selectMask j = selectMask i
  selectValue : selectValue j = selectValue i
  usedBits : usedBits j = usedBits i

/-- A word that carries the row's selecting bits is a word of that row, with some operands. -/
theorem exists_rowWord_of_select {w : InstrWord} {i : Instr} (h : w &&& selectMask i = selectValue i) :
    ∃ j, RowWord w j ∧ SameRow i j := by
  cases i with
  | add => rw [eq_encodeR_of_select (fn := 0x20) h]; exact ⟨_, .add .., rfl, rfl, rfl⟩
  | sub => rw [eq_encodeR_of_select (fn := 0x22) h]; exact ⟨_, .sub .., rfl, rfl, rfl⟩
  | slt => rw [eq_encodeR_of_select (fn := 0x2A) h]; exact ⟨_, .slt .., rfl, rfl, rfl⟩
  | sltu => rw [eq_encodeR_of_select (fn := 0x2B) h]; exact ⟨_, .sltu .., rfl, rfl, rfl⟩
  | mult => rw [eq_encodeR_of_select (fn := 0x18) h]; exact ⟨_, .mult .., rfl, rfl, rfl⟩
  | multu => rw [eq_encodeR_of_select (fn := 0x19) h]; exact ⟨_, .multu .., rfl, rfl, rfl⟩
  | div => rw [eq_encodeR_of_select (fn := 0x1A) h]; exact ⟨_, .div .., rfl, rfl, rfl⟩
  | divu => rw [eq_encodeR_of_select (fn := 0x1B) h]; exact ⟨_, .divu .., rfl, rfl, rfl⟩
  | mfhi => rw [eq_encodeR_of_select (fn := 0x10) h]; exact ⟨_, .mfhi .., rfl, rfl, rfl⟩
  | mflo => rw [eq_encodeR_of_select (fn := 0x12) h]; exact ⟨_, .mflo .., rfl, rfl, rfl⟩
  | lis => rw [eq_encodeR_of_select (fn := 0x14) h]; exact ⟨_, .lis .., rfl, rfl, rfl⟩
  | jr => rw [eq_encodeR_of_select (fn := 0x08) h]; exact ⟨_, .jr .., rfl, rfl, rfl⟩
  | jalr => rw [eq_encodeR_of_select (fn := 0x09) h]; exact ⟨_, .jalr .., rfl, rfl, rfl⟩
  | lw => rw [eq_encodeI_of_select (op := 0x23) h]; exact ⟨_, .lw .., rfl, rfl, rfl⟩
  | sw => rw [eq_encodeI_of_select (op := 0x2B) h]; exact ⟨_, .sw .., rfl, rfl, rfl⟩
  | beq => rw [eq_encodeI_of_select (op := 0x04) h]; exact ⟨_, .beq .., rfl, rfl, rfl⟩
  | bne => rw [eq_encodeI_of_select (op := 0x05) h]; exact ⟨_, .bne .., rfl, rfl, rfl⟩

/-- The selecting bits are among the used ones. -/
theorem usedBits_and_selectMask (i : Instr) : usedBits i &&& selectMask i = selectMask i := by
  cases i <;> (simp only [usedBits, selectMask]; decide)

/-- A word that agrees with a row's word on the used bits is a word of the same instruction: it is one of the same row, and both
instructions have the same encoding. -/
theorem RowWord.of_agree {w w' : InstrWord} {i : Instr} (h : RowWord w i)
    (hw : w' &&& Sys2Proof.usedBits i = w &&& Sys2Proof.usedBits i) : RowWord w' i := by
  have hsel : w' &&& Sys2Proof.selectMask i = Sys2Proof.selectValue i := by
    rw [← usedBits_and_selectMask, ← BitVec.and_assoc, hw, BitVec.and_assoc, usedBits_and_selectMask, h.and_selectMask]
  obtain ⟨j, hj, hrow⟩ := exists_rowWord_of_select hsel
  have henc : encode j = encode i := by
    rw [← hj.and_usedBits, hrow.usedBits, hw, h.and_usedBits]
  have hji : j = i := by
    have hdec := decodeOfEncode j
    rw [henc, decodeOfEncode i] at hdec
    injection hdec with hij
    exact hij.symm
  exact hji ▸ hj

/-- Settles O4: the row's words carry the selecting bits, those bits give a word of the row, and the used bits give the operands. -/
theorem onlySelectingAndUsedFieldsMatter : Obligations.OnlySelectingAndUsedFieldsMatter := by
  intro w i h
  have hrow := decode_eq_ok_iff.mp h
  refine ⟨hrow.and_selectMask, fun w' hw' => ?_, fun w' hw' => (hrow.of_agree hw').decode_eq⟩
  obtain ⟨j, hj, hsame⟩ := exists_rowWord_of_select hw'
  exact ⟨j, hj.decode_eq, hsame.selectMask, hsame.selectValue⟩

/-! ### Decode failures that name a function (30_encoding.md R71) -/

/-- A function outside the R-type map falls through its thirteen rows to the failure. -/
theorem decodeFunction_of_unknown {w : InstrWord} (h : functionField w ∉
      ([0x20, 0x22, 0x18, 0x19, 0x1A, 0x1B, 0x10, 0x12, 0x14, 0x08, 0x09, 0x2A, 0x2B] : List (BitVec 6))) :
    decodeFunction w = .error ⟨.function, functionField w⟩ := by
  unfold decodeFunction
  split
  case h_14 => rfl
  all_goals
    rename_i hfn
    exact absurd (hfn ▸ h) (by decide)

theorem decode_of_unknown_function {w : InstrWord} (h0 : opcodeField w = 0)
    (h : functionField w ∉
      ([0x20, 0x22, 0x18, 0x19, 0x1A, 0x1B, 0x10, 0x12, 0x14, 0x08, 0x09, 0x2A, 0x2B] : List (BitVec 6))) :
    decode w = .error ⟨.function, functionField w⟩ :=
  (if_pos h0).trans (decodeFunction_of_unknown h)

/-- Of the 64 functions the map leaves out all but its thirteen, each tried with the other bits 0. -/
theorem unknown_functions_count :
    ((List.range 64).filter fun k =>
      decode (BitVec.ofNat 32 k) = .error ⟨.function, BitVec.ofNat 6 k⟩).length = 51 := by
  decide

/-! ### The decode stage (41_core_cycle.md R93, R100) -/

/-- The stages after the fetch, for a word that does not decode: the error is taken. -/
theorem runWord_of_error {w : InstrWord} {d : DecodeError} (h : decode w = .error d) (who : Caller) (pre s : State) :
    runWord who pre s w = .next (s.raise (.decode d)) := by
  simp [runWord, h]

/-- The stages after the fetch, for a word that decodes: the execute stage, and how it ends the cycle. -/
theorem runWord_of_ok {w : InstrWord} {i : Instr} (h : decode w = .ok i) (who : Caller) (pre s : State) :
    runWord who pre s w = finishInstr who pre s.instrAddr w i (exec i s) := by
  simp [runWord, h]

/-- Where no fault and no refusal is recorded, a direct execute is the stages after the fetch (R100). -/
theorem directExecute_eq_runWord {s : State} (hf : s.fault = none) (hr : s.refused = false) (w : InstrWord) :
    directExecute s w = runWord .direct s s w := by
  simp [directExecute, hf, hr]

/-- Settles O5: the dispatch and the map's fall-through, a count of the map, and the decode stage of a direct execute. -/
theorem unknownFunctionRejected : Obligations.UnknownFunctionRejected := by
  refine ⟨fun _ => decode_of_unknown_function, unknown_functions_count, by decide, fun s w hf hr hop hfn => ?_⟩
  have hd : decode w = .error ⟨.function, 0x3F⟩ := hfn ▸ decode_of_unknown_function hop (by rw [hfn]; decide)
  rw [directExecute_eq_runWord hf hr, runWord_of_error hd]
  rfl

/-- Settles O1: each word is evaluated. -/
theorem specWordsDecode : Obligations.SpecWordsDecode := by
  unfold Obligations.SpecWordsDecode
  decide

end Sys2Proof.Machine

/-!
PROOFS. Family 43_multiply_divide.md: the effects of the multiplies, the divides and the move from HI (R107 to R111), and the
algorithms of 40_arithmetic_unit.md (R87 to R89) against the exact results that the machine uses. The products and quotients
themselves are those of the section on R113 above.
-/

namespace Sys2Proof.Machine

/-! ### The execute stage, by instruction (43_multiply_divide.md R107 to R111) -/

/-- An execute stage that ends in the write of HI and LO has that write as its only effect. -/
theorem completesHiLo_of_exec_eq {i : Instr} {s : State} {h l : Word} {result : Word → Word → Prop}
    (hx : exec i s = .next (s.setHiLo h l)) (hr : result h l) : CompletesHiLo i s result :=
  ⟨s.setHiLo h l, hx, hr, fun _ => rfl, rfl, ⟨rfl, rfl, rfl, rfl, rfl, rfl, rfl⟩, ⟨fun _ => rfl, rfl⟩, ⟨rfl, rfl⟩⟩

section instructions

variable (s : State) (rd rs rt : Reg)

theorem exec_mult : exec (.mult rs rt) s =
    .next (s.setHiLo (multiplyS (s.reg rs) (s.reg rt)).1 (multiplyS (s.reg rs) (s.reg rt)).2) := rfl

theorem exec_multu : exec (.multu rs rt) s =
    .next (s.setHiLo (multiplyU (s.reg rs) (s.reg rt)).1 (multiplyU (s.reg rs) (s.reg rt)).2) := rfl

theorem exec_mfhi : exec (.mfhi rd) s = .next (s.writeReg rd s.hi) := rfl

variable {s rt}

theorem exec_div_of_ne_zero (h : s.reg rt ≠ 0) : exec (.div rs rt) s =
    .next (s.setHiLo ((s.reg rs).srem (s.reg rt)) ((s.reg rs).sdiv (s.reg rt))) := by
  simp only [exec, execDiv, divideS_of_ne_zero h, State.finishDivide]

theorem exec_divu_of_ne_zero (h : s.reg rt ≠ 0) : exec (.divu rs rt) s =
    .next (s.setHiLo (s.reg rs % s.reg rt) (s.reg rs / s.reg rt)) := by
  simp only [exec, execDivu, divideU_of_ne_zero h, State.finishDivide]

theorem exec_div_of_zero (h : s.reg rt = 0) : exec (.div rs rt) s = .next (s.raise (.divideByZero rt)) := by
  simp only [exec, execDiv, divideS_eq_none.mpr h, State.finishDivide]

theorem exec_divu_of_zero (h : s.reg rt = 0) : exec (.divu rs rt) s = .next (s.raise (.divideByZero rt)) := by
  simp only [exec, execDivu, divideU_eq_none.mpr h, State.finishDivide]

end instructions

/-! ### The effects -/

/-- Settles O11: mult's row, and HI:LO as the signed product. -/
theorem multEffect : Obligations.MultEffect := fun s rs rt rd shamt =>
  ⟨decode_mult rd rs rt shamt, completesHiLo_of_exec_eq (exec_mult s rs rt) (multiplyS_recombine _ _)⟩

/-- Settles O12: multu's row, and HI:LO as the unsigned product. -/
theorem multuEffect : Obligations.MultuEffect := fun s rs rt rd shamt =>
  ⟨decode_multu rd rs rt shamt, completesHiLo_of_exec_eq (exec_multu s rs rt) (multiplyU_recombine _ _)⟩

/-- Settles O13: div's row, and its results as the truncated signed division. -/
theorem divEffect : Obligations.DivEffect := fun _ rs rt rd shamt =>
  ⟨decode_div rd rs rt shamt, fun h =>
    completesHiLo_of_exec_eq (exec_div_of_ne_zero rs h) ⟨(wrap_tdiv _ _).symm, (wrap_tmod _ _).symm⟩⟩

/-- Settles O14: divu's row, and its results as the unsigned division. -/
theorem divuEffect : Obligations.DivuEffect := fun _ rs rt rd shamt =>
  ⟨decode_divu rd rs rt shamt, fun h =>
    completesHiLo_of_exec_eq (exec_divu_of_ne_zero rs h) ⟨BitVec.toNat_udiv, BitVec.toNat_umod⟩⟩

/-- Settles O15: both divides by a zero divisor raise, and `$0` is always one. -/
theorem zeroDivisorRaises : Obligations.ZeroDivisorRaises := fun s rs _ h =>
  ⟨exec_div_of_zero rs h, exec_divu_of_zero rs h, exec_div_of_zero rs s.reg_zero, exec_divu_of_zero rs s.reg_zero⟩

/-- Settles O16: mfhi's row, and its execute stage as the register write of HI. -/
theorem mfhiEffect : Obligations.MfhiEffect := fun s rs rt rd shamt =>
  ⟨decode_mfhi rd rs rt shamt, completesWriting_of_exec_eq (exec_mfhi s rd)⟩

/-! ### The Karatsuba recursion (40_arithmetic_unit.md R87) -/

/-- Operands below 2^64 are multiplied at once. -/
theorem karatsuba_of_small {x y : Nat} (hx : x < 2 ^ 64) (hy : y < 2 ^ 64) (depth n : Nat) :
    karatsuba (depth + 1) x y n = some (x * y) := by
  rw [karatsuba, if_pos ⟨hx, hy⟩]

/-- The combining formula (G1): the middle product less the outer ones is the sum of the two mixed products, so the three give the
product of the operands that the halves make up. -/
theorem karatsuba_combine (x1 x0 y1 y0 h : Nat) :
    x1 * y1 * 2 ^ (2 * h) + ((x1 + x0) * (y1 + y0) - x1 * y1 - x0 * y0) * 2 ^ h + x0 * y0
      = (2 ^ h * x1 + x0) * (2 ^ h * y1 + y0) := by
  have hmiddle : (x1 + x0) * (y1 + y0) - x1 * y1 - x0 * y0 = x1 * y0 + x0 * y1 := by
    rw [show (x1 + x0) * (y1 + y0) = x1 * y0 + x0 * y1 + x0 * y0 + x1 * y1 by ring, Nat.add_sub_cancel, Nat.add_sub_cancel]
  rw [hmiddle]
  ring

/-- A level whose three products are exact is exact. -/
theorem karatsuba_of_halves {depth x y n h : Nat} (hn : n / 2 = h)
    (h2 : karatsuba depth (x / 2 ^ h) (y / 2 ^ h) h = some (x / 2 ^ h * (y / 2 ^ h)))
    (h0 : karatsuba depth (x % 2 ^ h) (y % 2 ^ h) h = some (x % 2 ^ h * (y % 2 ^ h)))
    (hm : karatsuba depth (x / 2 ^ h + x % 2 ^ h) (y / 2 ^ h + y % 2 ^ h) h
      = some ((x / 2 ^ h + x % 2 ^ h) * (y / 2 ^ h + y % 2 ^ h))) :
    karatsuba (depth + 1) x y n = some (x * y) := by
  rw [karatsuba]
  split_ifs
  · rfl
  · simp only [hn, h2, h0, hm, karatsuba_combine, Nat.div_add_mod]

/-- Operands of 65 bits, split at 32, need no second level: both halves and their sums are below 2^64. -/
theorem karatsuba_of_65_bits {x y : Nat} (hx : x < 2 ^ 65) (hy : y < 2 ^ 65) (depth : Nat) :
    karatsuba (depth + 2) x y 64 = some (x * y) := by
  apply karatsuba_of_halves (h := 32) rfl <;> apply karatsuba_of_small <;> omega

/-- Operands of 128 bits, split at 64, have halves of 64 bits, whose sums have 65. -/
theorem karatsuba_of_128_bits {x y : Nat} (hx : x < 2 ^ 128) (hy : y < 2 ^ 128) :
    karatsuba 3 x y 128 = some (x * y) := by
  apply karatsuba_of_halves (h := 64) rfl <;> apply karatsuba_of_65_bits <;> omega

/-- Settles O19: the operands are 128-bit values. -/
theorem karatsubaIsExact : Obligations.KaratsubaIsExact := fun a b => karatsuba_of_128_bits a.isLt b.isLt

/-! ### The signed product from magnitudes (40_arithmetic_unit.md R88) -/

/-- The product of two magnitudes is the magnitude of the product, well below 2^256. -/
theorem natAbs_toInt_mul_lt (a b : Word) : a.toInt.natAbs * b.toInt.natAbs < 2 ^ 256 := by
  have natAbs_lt (x : Word) : x.toInt.natAbs < 2 ^ 128 := by
    have := BitVec.toInt_lt (x := x)
    have := BitVec.le_toInt (x := x)
    omega
  exact (Nat.mul_lt_mul'' (natAbs_lt a) (natAbs_lt b)).trans_eq (by norm_num)

/-- The product of the signed readings is the product of the magnitudes, negative where the signs differ and neither operand is 0. -/
theorem toInt_mul_toInt_eq_ite (a b : Word) : a.toInt * b.toInt =
    if a = 0 ∨ b = 0 ∨ (a.toInt < 0 ↔ b.toInt < 0) then ((a.toInt.natAbs * b.toInt.natAbs : Nat) : Int)
    else -((a.toInt.natAbs * b.toInt.natAbs : Nat) : Int) := by
  have hzero (x : Word) (h : x = 0) : x.toInt = 0 := h ▸ rfl
  rw [Nat.cast_mul, magnitude_eq_ite, magnitude_eq_ite]
  by_cases h0 : a = 0 ∨ b = 0
  · rcases h0 with h | h <;> simp [h, hzero]
  · obtain ⟨ha, hb⟩ := not_or.mp h0
    simp only [ha, hb, false_or]
    by_cases hna : a.toInt < 0 <;> by_cases hnb : b.toInt < 0 <;> simp [hna, hnb]

theorem signedProductFromMagnitudes_eq_tc256 (a b : Word) :
    signedProductFromMagnitudes a b = tc256 (a.toInt * b.toInt) := by
  have hlt := natAbs_toInt_mul_lt a b
  rw [signedProductFromMagnitudes, tc256, toInt_mul_toInt_eq_ite]
  split_ifs <;> omega

/-- The low half of a 256-bit two's-complement form is the 128-bit one. -/
theorem splitProduct_tc256_low (i : Int) : (splitProduct (tc256 i)).2 = wrap i := by
  apply BitVec.eq_of_toNat_eq
  simp only [splitProduct, tc256, wrap, BitVec.toNat_ofNat, BitVec.toNat_ofInt]
  omega

/-- The low halves of the signed and of the unsigned product are the product modulo 2^128. -/
theorem multiplyS_low_eq_multiplyU_low (a b : Word) : (multiplyS a b).2 = (multiplyU a b).2 := calc
  (multiplyS a b).2 = wrap (a.toInt * b.toInt) := splitProduct_tc256_low _
  _ = a * b := by rw [wrap, BitVec.ofInt_mul, BitVec.ofInt_toInt, BitVec.ofInt_toInt]
  _ = (multiplyU a b).2 := BitVec.mul_def

/-- Settles O20: the magnitudes' product with its sign is the two's-complement product, and both multiplies agree below bit 128. -/
theorem signedProductFromMagnitudesAgrees : Obligations.SignedProductFromMagnitudesAgrees := fun a b =>
  ⟨congrArg splitProduct (signedProductFromMagnitudes_eq_tc256 a b), multiplyS_low_eq_multiplyU_low a b⟩

/-! ### The restoring loop (40_arithmetic_unit.md R89) -/

/-- The low `k + 1` bits of a number are bit `k` above the low `k`. -/
theorem mod_two_pow_succ_eq (n k : Nat) : n % 2 ^ (k + 1) = (n.testBit k).toNat * 2 ^ k + n % 2 ^ k := by
  rw [Nat.toNat_testBit, Nat.mod_pow_succ]
  ring

/-- The loop divides what is left: the partial remainder followed by the low `k` bits. -/
theorem restoringLoop_eq (n : Nat) {d : Nat} : ∀ (k q r : Nat), r < d →
    restoringLoop n d k q r = (q + (r * 2 ^ k + n % 2 ^ k) / d, (r * 2 ^ k + n % 2 ^ k) % d) := by
  intro k
  induction k with
  | zero =>
    intro q r hr
    simp [restoringLoop, Nat.mod_one, Nat.div_eq_of_lt hr, Nat.mod_eq_of_lt hr]
  | succ k ih =>
    intro q r hr
    have hbit : (n.testBit k).toNat ≤ 1 := Bool.toNat_le _
    have hleft : r * 2 ^ (k + 1) + n % 2 ^ (k + 1) = (2 * r + (n.testBit k).toNat) * 2 ^ k + n % 2 ^ k := by
      rw [mod_two_pow_succ_eq]
      ring
    rw [restoringLoop, hleft]
    split_ifs with hd
    · obtain ⟨e, he⟩ := Nat.exists_eq_add_of_le hd
      have hsub : (d + e) * 2 ^ k + n % 2 ^ k = e * 2 ^ k + n % 2 ^ k + d * 2 ^ k := by ring
      rw [he, Nat.add_sub_cancel_left, ih _ e (by omega), hsub, Nat.add_mul_div_left _ _ (by omega),
        Nat.add_mul_mod_self_left, Nat.add_right_comm, Nat.add_assoc]
    · exact ih q _ (not_le.mp hd)

/-- Settles O21: the loop from the whole dividend and a zero remainder. -/
theorem restoringDivisionIsExact : Obligations.RestoringDivisionIsExact := by
  intro a b
  by_cases hb : b = 0
  · rw [divideU_eq_none.mpr hb, hb]
    rfl
  · have hpos : 0 < b.toNat := Nat.pos_of_ne_zero fun e => hb (BitVec.eq_of_toNat_eq e)
    rw [divideU_of_ne_zero hb, restoringDivide, if_neg hpos.ne', restoringLoop_eq _ _ _ _ hpos,
      Nat.mod_eq_of_lt a.isLt, Nat.zero_mul, Nat.zero_add, Nat.zero_add]
    rfl

end Sys2Proof.Machine

/-!
PROOFS. Families 20_memory.md, 44_load_store.md and 45_control_transfer.md. What each access answers is said once, by the kind of its
address (R42 to R50); a load, a store or a literal read is then the access's answer taken on by the execute stage (R115 to R117).
-/

namespace Sys2Proof.Machine

/-! ### The answers of an access, by its address (20_memory.md R45, R46, R50) -/

section accesses

variable {s : State} {a : Word} {v : Word}

theorem DataStorage.classify_eq (h : DataStorage s a) : classify s.config a .data = .storage :=
  classify_eq_storage.mpr h

theorem FetchStorage.classify_eq (h : FetchStorage s a) : classify s.config a .fetch = .storage :=
  classify_eq_storage.mpr h

theorem DataMmio.classify_eq (h : DataMmio s a) : classify s.config a .data = .mmio :=
  classify_eq_mmio.mpr h

theorem State.memRead_of_storage (h : DataStorage s a) : s.memRead a = .ok (s.cell a.toNat, s) := by
  simp [State.memRead, h.classify_eq]

theorem State.memWrite_of_storage (h : DataStorage s a) : s.memWrite a v = .ok (s.storeCell a.toNat v) := by
  simp [State.memWrite, h.classify_eq]

theorem State.fetch32_of_storage (h : FetchStorage s a) : s.fetch32 a = .ok ((s.cell a.toNat).extractLsb' 0 32) := by
  simp [State.fetch32, h.classify_eq]

theorem State.memRead_of_inputPort (h : DataMmio s a) (hp : a.toNat = s.config.inputPort) :
    s.memRead a = .ok (Config.inputDraw s.draws, s.afterDraw) := by
  simp [State.memRead, h.classify_eq, hp, State.nextDraw]

theorem State.memWrite_of_outputPort (h : DataMmio s a) (hp : a.toNat = s.config.outputPort) :
    s.memWrite a v = .ok (s.print v) := by
  simp [State.memWrite, h.classify_eq, hp]

theorem State.memRead_of_mmio (h : DataMmio s a) (hp : a.toNat ≠ s.config.inputPort) :
    s.memRead a = .refused (.mmioLoad a) := by
  simp [State.memRead, h.classify_eq, hp]

theorem State.memWrite_of_mmio (h : DataMmio s a) (hp : a.toNat ≠ s.config.outputPort) :
    s.memWrite a v = .refused (.mmioStore a) := by
  simp [State.memWrite, h.classify_eq, hp]

theorem State.fetch32_of_mmio (ha : a.toNat % 4 = 0) (ht : s.config.mmioThreshold ≤ a.toNat) :
    s.fetch32 a = .refused (.mmioFetch a) := by
  have hc : classify s.config a .fetch = .mmio := classify_eq_mmio.mpr ⟨ha, ht⟩
  simp [State.fetch32, hc]

theorem State.memRead_of_misaligned (h : a.toNat % 16 ≠ 0) : s.memRead a = .raised (.alignment a 16) := by
  rw [State.memRead, classify_eq_misaligned.mpr h]
  rfl

theorem State.memWrite_of_misaligned (h : a.toNat % 16 ≠ 0) : s.memWrite a v = .raised (.alignment a 16) := by
  rw [State.memWrite, classify_eq_misaligned.mpr h]
  rfl

theorem State.fetch32_of_misaligned (h : a.toNat % 4 ≠ 0) : s.fetch32 a = .raised (.alignment a 4) := by
  rw [State.fetch32, classify_eq_misaligned.mpr h]
  rfl

/-- A data address between memory and the MMIO range (20_memory.md R42). -/
def DataOutOfBounds (s : State) (a : Word) : Prop :=
  a.toNat % 16 = 0 ∧ a.toNat < s.config.mmioThreshold ∧ s.config.memSize ≤ a.toNat

theorem DataOutOfBounds.classify_eq (h : DataOutOfBounds s a) : classify s.config a .data = .outOfBounds :=
  classify_eq_outOfBounds.mpr h

theorem State.memRead_of_outOfBounds (h : DataOutOfBounds s a) : s.memRead a = .raised (.outOfBounds a) := by
  simp [State.memRead, h.classify_eq]

theorem State.memWrite_of_outOfBounds (h : DataOutOfBounds s a) : s.memWrite a v = .raised (.outOfBounds a) := by
  simp [State.memWrite, h.classify_eq]

theorem State.fetch32_of_outOfBounds (ha : a.toNat % 4 = 0) (ht : a.toNat < s.config.mmioThreshold)
    (hm : s.config.memSize ≤ a.toNat) : s.fetch32 a = .raised (.outOfBounds a) := by
  have hc : classify s.config a .fetch = .outOfBounds := classify_eq_outOfBounds.mpr ⟨ha, ht, hm⟩
  simp [State.fetch32, hc]

/-- A data address of storage can be fetched from: its alignment is the stronger one. -/
theorem DataStorage.fetchStorage (h : DataStorage s a) : FetchStorage s a := by
  obtain ⟨halign, hmmio, hmem⟩ := h
  exact ⟨by omega, hmmio, hmem⟩

/-- What an address is depends on the parameters only. -/
theorem DataStorage.congr {t : State} (h : DataStorage s a) (hc : t.config = s.config) : DataStorage t a := by
  unfold DataStorage
  rw [hc]
  exact h

theorem FetchStorage.congr {t : State} (h : FetchStorage s a) (hc : t.config = s.config) : FetchStorage t a := by
  unfold FetchStorage
  rw [hc]
  exact h

end accesses

/-! ### The execute stage takes the access's answer on (44_load_store.md R115 to R117) -/

section instructions

variable {s : State} {rt rs rd : Reg} {imm : BitVec 16}

theorem exec_lw_of_ok {v : Word} {t : State} (h : s.memRead (s.effectiveAddress rs imm) = .ok (v, t)) :
    exec (.lw rt rs imm) s = .next (t.writeReg rt v) := by
  simp only [exec, execLw, h, Access.elim]

theorem exec_lw_of_raised {e : Error} (h : s.memRead (s.effectiveAddress rs imm) = .raised e) :
    exec (.lw rt rs imm) s = .next (s.raise e) := by
  simp only [exec, execLw, h, Access.elim]

theorem exec_lw_of_refused {r : Refusal} (h : s.memRead (s.effectiveAddress rs imm) = .refused r) :
    exec (.lw rt rs imm) s = .refused r := by
  simp only [exec, execLw, h, Access.elim]

theorem exec_sw_of_ok {t : State} (h : s.memWrite (s.effectiveAddress rs imm) (s.reg rt) = .ok t) :
    exec (.sw rt rs imm) s = .next t := by
  simp only [exec, execSw, h, Access.elim]

theorem exec_sw_of_raised {e : Error} (h : s.memWrite (s.effectiveAddress rs imm) (s.reg rt) = .raised e) :
    exec (.sw rt rs imm) s = .next (s.raise e) := by
  simp only [exec, execSw, h, Access.elim]

theorem exec_sw_of_refused {r : Refusal} (h : s.memWrite (s.effectiveAddress rs imm) (s.reg rt) = .refused r) :
    exec (.sw rt rs imm) s = .refused r := by
  simp only [exec, execSw, h, Access.elim]

theorem exec_lis_of_ok {w : InstrWord} (h : s.fetch32 s.pc = .ok w) :
    exec (.lis rd) s = .next ((s.writeReg rd (widenLiteral s.config.lisExt w)).setPc (addWords s.pc 4)) := by
  simp only [exec, execLis, h, Access.elim]

theorem exec_lis_of_raised {e : Error} (h : s.fetch32 s.pc = .raised e) : exec (.lis rd) s = .next (s.raise e) := by
  simp only [exec, execLis, h, Access.elim]

theorem exec_lis_of_refused {r : Refusal} (h : s.fetch32 s.pc = .refused r) : exec (.lis rd) s = .refused r := by
  simp only [exec, execLis, h, Access.elim]

theorem exec_sw_of_storage (h : DataStorage s (s.effectiveAddress rs imm)) :
    exec (.sw rt rs imm) s = .next (s.storeCell (s.effectiveAddress rs imm).toNat (s.reg rt)) :=
  exec_sw_of_ok (State.memWrite_of_storage h)

end instructions

/-! ### The effective address (44_load_store.md R114) -/

theorem toNat_addWords_signExtend16 (b : Word) (imm : BitVec 16) :
    ((addWords b (signExtend16 imm)).toNat : Int) = (b.toNat + imm.toInt) % 2 ^ 128 := by
  rw [addWords, signExtend16, BitVec.signExtend, BitVec.toNat_add, BitVec.toNat_ofInt]
  omega

/-- Settles O22: the sign-extended immediate added modulo 2^128. -/
theorem effectiveAddressWraps : Obligations.EffectiveAddressWraps := fun s rs imm =>
  toNat_addWords_signExtend16 (s.reg rs) imm

/-! ### Loads and stores that complete -/

/-- Settles O23: lw's row, and the read of storage as a register write. -/
theorem lwFromStorage : Obligations.LwFromStorage := fun _ rt rs imm =>
  ⟨decode_lw rs rt imm, fun h => completesWriting_of_exec_eq (exec_lw_of_ok (State.memRead_of_storage h))⟩

/-- Settles O24: the draw is taken, and then written to the register. -/
theorem lwFromInputPort : Obligations.LwFromInputPort := fun s rt _ _ h hp =>
  ⟨s.afterDraw.writeReg rt (Config.inputDraw s.draws), exec_lw_of_ok (State.memRead_of_inputPort h hp),
    fun r => s.afterDraw.writeReg_reg rt r _, rfl, rfl, rfl, ⟨rfl, rfl⟩, ⟨rfl, rfl, rfl, rfl, rfl, rfl, rfl⟩,
    ⟨fun _ => rfl, rfl⟩⟩

theorem State.storeCell_cell_same (s : State) (a : Nat) (v : Word) : (s.storeCell a v).cell a = v := by
  rw [State.storeCell_cell, if_pos rfl]

theorem State.storeCell_cell_of_ne (s : State) {a b : Nat} (h : b ≠ a) (v : Word) :
    (s.storeCell a v).cell b = s.cell b := by
  rw [State.storeCell_cell, if_neg h]

/-- A store of one cell leaves registers, PC, HI and LO, control state and ports. -/
theorem State.storeCell_frame (s : State) (a : Nat) (v : Word) :
    (s.storeCell a v).pc = s.pc ∧ SameRegs s (s.storeCell a v) ∧ SameHiLo s (s.storeCell a v)
      ∧ SameControl s (s.storeCell a v) ∧ SamePorts s (s.storeCell a v) :=
  ⟨rfl, fun _ => rfl, ⟨rfl, rfl⟩, ⟨rfl, rfl, rfl, rfl, rfl, rfl, rfl⟩, ⟨rfl, rfl⟩⟩

/-- Settles O25: sw's row, and the write to storage as the store of one cell. -/
theorem swToStorage : Obligations.SwToStorage := fun s rt rs imm =>
  ⟨decode_sw rs rt imm, fun h =>
    ⟨_, exec_sw_of_storage h, s.storeCell_cell_same _ _, fun _ hne => s.storeCell_cell_of_ne hne _,
      fun b => (mem_markWritten s.written _ b).trans or_comm, s.storeCell_frame _ _⟩⟩

/-- Settles O26: the output log gets the register. -/
theorem swToOutputPort : Obligations.SwToOutputPort := fun s rt _ _ h hp =>
  ⟨s.print (s.reg rt), exec_sw_of_ok (State.memWrite_of_outputPort h hp), rfl, rfl, rfl, fun _ => rfl, ⟨rfl, rfl⟩,
    ⟨rfl, rfl, rfl, rfl, rfl, rfl, rfl⟩, ⟨fun _ => rfl, rfl⟩⟩

/-! ### Loads and stores that stop -/

theorem lw_raises_of_misaligned {s : State} {rt rs : Reg} {imm : BitVec 16}
    (h : (s.effectiveAddress rs imm).toNat % 16 ≠ 0) :
    Raises (.lw rt rs imm) s (.alignment (s.effectiveAddress rs imm) 16) :=
  exec_lw_of_raised (State.memRead_of_misaligned h)

theorem sw_raises_of_misaligned {s : State} {rt rs : Reg} {imm : BitVec 16}
    (h : (s.effectiveAddress rs imm).toNat % 16 ≠ 0) :
    Raises (.sw rt rs imm) s (.alignment (s.effectiveAddress rs imm) 16) :=
  exec_sw_of_raised (State.memWrite_of_misaligned h)

/-- Settles O27: the checks in the controller's order, each answered by its access rule. -/
theorem loadStoreStops : Obligations.LoadStoreStops := by
  intro s rt rs imm a ha
  subst ha
  split_ifs with halign hmmio hmem
  · exact ⟨lw_raises_of_misaligned halign, sw_raises_of_misaligned halign⟩
  · have h : DataMmio s (s.effectiveAddress rs imm) := ⟨not_not.mp halign, hmmio⟩
    exact ⟨fun hp => exec_lw_of_refused (State.memRead_of_mmio h hp),
      fun hp => exec_sw_of_refused (State.memWrite_of_mmio h hp)⟩
  · have h : DataOutOfBounds s (s.effectiveAddress rs imm) := ⟨not_not.mp halign, not_le.mp hmmio, hmem⟩
    exact ⟨exec_lw_of_raised (State.memRead_of_outOfBounds h), exec_sw_of_raised (State.memWrite_of_outOfBounds h)⟩
  · exact ⟨not_not.mp halign, not_le.mp hmmio, not_le.mp hmem⟩

/-! ### The literal (44_load_store.md R117) -/

/-- The literal of a cell, widened as LIS_EXT says. -/
theorem widenLiteral_cell (ext : LisExt) (v : Word) : widenLiteral ext (v.extractLsb' 0 32) =
    match ext with
    | .zero => BitVec.ofNat 128 (v.toNat % 2 ^ 32)
    | .sign => BitVec.ofInt 128 (v.extractLsb' 0 32).toInt := by
  cases ext with
  | zero =>
    apply BitVec.eq_of_toNat_eq
    simp [widenLiteral, zeroExtend32]
  | sign => rfl

/-- Settles O28: lis's row, and the literal read as a register write and a move of PC. -/
theorem lisEffect : Obligations.LisEffect := fun s rs rt rd shamt =>
  ⟨decode_lis rd rs rt shamt, fun h =>
    ⟨_, exec_lis_of_ok (State.fetch32_of_storage h),
      fun r => (s.writeReg_reg rd r _).trans (if_congr Iff.rfl (widenLiteral_cell _ _) rfl),
      rfl, ⟨rfl, rfl⟩, ⟨rfl, rfl, rfl, rfl, rfl, rfl, rfl⟩, ⟨fun _ => rfl, rfl⟩, ⟨rfl, rfl⟩⟩⟩

theorem lis_raises_of_misaligned {s : State} (h : s.pc.toNat % 4 ≠ 0) (rd : Reg) :
    Raises (.lis rd) s (.alignment s.pc 4) :=
  exec_lis_of_raised (State.fetch32_of_misaligned h)

/-- Settles O29: the checks in the controller's order, each answered by its access rule. -/
theorem lisStops : Obligations.LisStops := by
  intro s rd
  split_ifs with halign hmmio hmem
  · exact lis_raises_of_misaligned halign rd
  · exact exec_lis_of_refused (State.fetch32_of_mmio (not_not.mp halign) hmmio)
  · exact exec_lis_of_raised (State.fetch32_of_outOfBounds (not_not.mp halign) (not_le.mp hmmio) hmem)
  · exact ⟨not_not.mp halign, not_le.mp hmmio, not_le.mp hmem⟩

/-! ### Reads after a store (20_memory.md R55, R59) -/

/-- A store to storage that gives a next state has stored its cell. -/
theorem eq_storeCell_of_exec_sw {s t : State} {rt rs : Reg} {imm : BitVec 16}
    (h : DataStorage s (s.effectiveAddress rs imm)) (hx : exec (.sw rt rs imm) s = .next t) :
    t = s.storeCell (s.effectiveAddress rs imm).toNat (s.reg rt) := by
  rw [exec_sw_of_storage h] at hx
  exact (Host.Outcome.next.inj hx).symm

/-- A cell after a store, by the addresses as words. -/
theorem State.storeCell_cell_toNat (s : State) (a b v : Word) :
    (s.storeCell a.toNat v).cell b.toNat = if b = a then v else s.cell b.toNat := by
  rw [State.storeCell_cell]
  exact if_congr BitVec.toNat_inj rfl rfl

/-- Settles O30: the load reads the cell after the store. -/
theorem storeThenLoad : Obligations.StoreThenLoad := by
  intro s t rt rs rd rb imm off hstore hx hload
  obtain rfl := eq_storeCell_of_exec_sw hstore hx
  have hread := State.memRead_of_storage
    (hload.congr (t := s.storeCell (s.effectiveAddress rs imm).toNat (s.reg rt)) rfl)
  rw [State.storeCell_cell_toNat] at hread
  exact completesWriting_of_exec_eq (exec_lw_of_ok hread)

/-- Settles O31: a fetch reads the parameters and one cell, and the store wrote one cell. -/
theorem fetchSeesStore : Obligations.FetchSeesStore := by
  intro s t rt rs imm hstore hx
  have ht := eq_storeCell_of_exec_sw hstore hx
  have hc : t.config = s.config := ht ▸ rfl
  constructor
  · rw [State.fetch32_of_storage (hstore.fetchStorage.congr hc), ht, State.storeCell_cell_same]
  · intro a hne
    refine State.fetch32_congr a hc ?_
    rw [ht, s.storeCell_cell_of_ne (mt BitVec.eq_of_toNat_eq hne)]

/-! ### Branches and jumps (45_control_transfer.md R118 to R122) -/

/-- An execute stage that ends in a move of PC has that move as its only effect. -/
theorem completesGoing_of_exec_eq {i : Instr} {s : State} {target : Word} (h : exec i s = .next (s.setPc target)) :
    CompletesGoing i s target :=
  ⟨s.setPc target, h, rfl, fun _ => rfl, ⟨rfl, rfl⟩, ⟨rfl, rfl, rfl, rfl, rfl, rfl, rfl⟩, ⟨fun _ => rfl, rfl⟩, ⟨rfl, rfl⟩⟩

theorem State.branchTarget_eq_ofInt (s : State) (imm : BitVec 16) :
    s.branchTarget imm = BitVec.ofInt 128 (s.pc.toNat + imm.toInt * 4) := by
  rw [State.branchTarget, addWords, signExtend16, BitVec.signExtend, BitVec.ofInt_add, BitVec.ofInt_mul,
    BitVec.ofInt_natCast, BitVec.ofNat_toNat, BitVec.setWidth_eq]
  rfl

theorem State.setPc_pc_self (s : State) : s.setPc s.pc = s := rfl

theorem exec_beq (s : State) (rs rt : Reg) (imm : BitVec 16) :
    exec (.beq rs rt imm) s = .next (s.setPc (if s.reg rs = s.reg rt then s.branchTarget imm else s.pc)) := by
  rw [apply_ite s.setPc, State.setPc_pc_self]
  rfl

theorem exec_bne (s : State) (rs rt : Reg) (imm : BitVec 16) :
    exec (.bne rs rt imm) s = .next (s.setPc (if s.reg rs = s.reg rt then s.pc else s.branchTarget imm)) := by
  rw [apply_ite s.setPc, State.setPc_pc_self, ← ite_not]
  rfl

theorem exec_jr (s : State) (rs : Reg) : exec (.jr rs) s = .next (s.setPc (s.reg rs)) := rfl

theorem exec_jalr (s : State) (rs : Reg) :
    exec (.jalr rs) s = .next ((s.writeReg 31 s.pc).setPc (if rs = 31 then s.pc else s.reg rs)) := by
  have hread : (s.writeReg 31 s.pc).reg rs = if rs = 31 then s.pc else s.reg rs := by
    rw [State.writeReg_reg]
    exact if_congr (and_iff_left_of_imp fun h => h ▸ by decide) rfl rfl
  rw [← hread]
  rfl

/-- Settles O34: beq's row, and the target as an integer sum. -/
theorem beqEffect : Obligations.BeqEffect := fun s rs rt imm =>
  ⟨decode_beq rs rt imm, completesGoing_of_exec_eq (by rw [exec_beq, State.branchTarget_eq_ofInt])⟩

/-- Settles O35: bne's row, and the target as an integer sum. -/
theorem bneEffect : Obligations.BneEffect := fun s rs rt imm =>
  ⟨decode_bne rs rt imm, completesGoing_of_exec_eq (by rw [exec_bne, State.branchTarget_eq_ofInt])⟩

/-- Settles O36: jr's row, and PC as the register. -/
theorem jrEffect : Obligations.JrEffect := fun s rs rt rd shamt =>
  ⟨decode_jr rd rs rt shamt, completesGoing_of_exec_eq (exec_jr s rs)⟩

/-- Settles O37: jalr's row, and the register read after the link. -/
theorem jalrEffect : Obligations.JalrEffect := fun s rs rt rd shamt =>
  ⟨decode_jalr rd rs rt shamt, _, exec_jalr s rs, fun r => s.writeReg_reg 31 r _, rfl, ⟨rfl, rfl⟩,
    ⟨rfl, rfl, rfl, rfl, rfl, rfl, rfl⟩, ⟨fun _ => rfl, rfl⟩, ⟨rfl, rfl⟩⟩

end Sys2Proof.Machine

/-!
PROOFS. Family 41_core_cycle.md, with the access errors of 20_memory.md and 60_exceptions.md that a cycle takes. The cycle's stages are
said in both directions: forward, what a step gives where its fetch and its decoding are known (`step_of_fetch_…`, `runWord_of_…`),
and backward, by the shapes of a cycle (`step_shape`) and of a direct execute (`directExecute_shape`).
-/

namespace Sys2Proof.Machine

/-! ### The cycle, forward (41_core_cycle.md R92 to R98) -/

section forward

variable {s : State} (he : s.enabled = true)
include he

theorem step_of_fetch_raised {e : Error} (hf : s.fetch32 s.pc = .raised e) : step s = .next (s.raiseAt e s.pc) := by
  obtain ⟨hrun, hfault, href⟩ := s.enabled_iff.mp he
  simp [step, cycle, hrun, hfault, href, hf]

theorem step_of_fetch_refused {r : Refusal} (hf : s.fetch32 s.pc = .refused r) : step s = .next s.markRefused := by
  obtain ⟨hrun, hfault, href⟩ := s.enabled_iff.mp he
  simp [step, cycle, hrun, hfault, href, hf]

theorem step_of_fetch_ok {w : InstrWord} (hf : s.fetch32 s.pc = .ok w) :
    step s = runWord .cycle s s.advancePc w := by
  obtain ⟨hrun, hfault, href⟩ := s.enabled_iff.mp he
  simp [step, cycle, hrun, hfault, href, hf]

end forward

/-- The stages after the fetch always give a next state: an error is one, and a refusal is carried out as one. -/
theorem runWord_next (who : Caller) (pre s : State) (w : InstrWord) : ∃ t, runWord who pre s w = .next t := by
  cases hd : decode w with
  | error d => exact ⟨_, runWord_of_error hd who pre s⟩
  | ok i =>
    rw [runWord_of_ok hd]
    cases hx : exec i s with
    | next t => exact ⟨_, rfl⟩
    | fault f => exact absurd hx (exec_ne_fault i s f)
    | refused r => exact ⟨_, rfl⟩

theorem step_next_of_enabled {s : State} (he : s.enabled = true) : ∃ t, step s = .next t := by
  cases hf : s.fetch32 s.pc with
  | ok w =>
    rw [step_of_fetch_ok he hf]
    exact runWord_next _ _ _ w
  | raised e => exact ⟨_, step_of_fetch_raised he hf⟩
  | refused r => exact ⟨_, step_of_fetch_refused he hf⟩

/-- Settles O40: a step inverts to an enabled state, and an enabled cycle ends in a next state in each of its stages. -/
theorem stepRunsExactlyWhereEnabled : Obligations.StepRunsExactlyWhereEnabled := fun s =>
  ⟨fun ⟨_, h⟩ => s.enabled_iff.mp (step_shape h).1, fun h => step_next_of_enabled (s.enabled_iff.mpr h)⟩

/-! ### The halt (41_core_cycle.md R98) -/

theorem isHalt_iff (i : Instr) : isHalt i = true ↔ i = .jr 0 := by
  cases i <;> simp [isHalt]

/-- The halt convention touches the run flag only. -/
theorem haltConvention_eq_setRunning (who : Caller) (i : Instr) (s : State) :
    ∃ b, haltConvention who i s = s.setRunning b := by
  rcases haltConvention_eq who i s with h | ⟨h, -, -⟩
  · exact ⟨s.running, h⟩
  · exact ⟨false, h⟩

@[simp] theorem haltConvention_direct (i : Instr) (s : State) : haltConvention .direct i s = s := by
  simp [haltConvention]

theorem haltConvention_of_ne {i : Instr} (h : i ≠ .jr 0) (who : Caller) (s : State) : haltConvention who i s = s := by
  simp [haltConvention, isHalt_iff, h]

theorem haltConvention_cycle_jr_zero (s : State) : haltConvention .cycle (.jr 0) s = s.setRunning false := rfl

/-- What commit and halt leave of a completed instruction's state. -/
theorem haltConvention_cycle_commit (i : Instr) (t : State) (a : Word) (w : InstrWord) :
    haltConvention .cycle i (t.commit a w) = { t with
      instrCount := t.instrCount + 1
      trace := appendTrace t.trace (.step a w)
      running := if i = .jr 0 then false else t.running } := by
  by_cases h : i = .jr 0
  · rw [h, if_pos rfl]
    rfl
  · rw [haltConvention_of_ne h, if_neg h]
    rfl

/-- Settles O39: the stages after the fetch, and how each outcome of the execute stage ends the cycle. -/
theorem stepRunsDecodedInstruction : Obligations.StepRunsDecodedInstruction := by
  intro s w i he hf hd
  have hstep : step s = finishInstr .cycle s s.pc w i (exec i s.advancePc) := by
    rw [step_of_fetch_ok he hf, runWord_of_ok hd, State.advancePc_instrAddr]
  refine ⟨fun t hx => ?_, fun r hx => ?_⟩
  · rw [hstep, show exec i s.advancePc = .next t from hx, finishInstr, haltConvention_cycle_commit]
  · rw [hstep, show exec i s.advancePc = .refused r from hx]
    rfl

/-! ### The direct execute, backward (41_core_cycle.md R100) -/

/-- The ways a direct execute of the word `w` can give a next state. -/
inductive DirectShape (s : State) (w : InstrWord) : State → Prop where
  /-- The execute stage was refused. -/
  | refused : DirectShape s w s.markRefused
  /-- The decode stage raised. -/
  | decodeRaised (d : DecodeError) (hd : decode w = .error d) : DirectShape s w (s.raise (.decode d))
  /-- The execute stage raised. -/
  | execRaised (i : Instr) (e : Error) (hd : decode w = .ok i) (hx : exec i s = .next (s.raise e)) :
      DirectShape s w (s.raise e)
  /-- The instruction completed. -/
  | completed (i : Instr) (u : State) (hd : decode w = .ok i) (hx : exec i s = .next u) (hu : u.fault = none) :
      DirectShape s w (u.commit s.instrAddr w)

/-- A direct execute that gives a next state found no fault and no refusal recorded, and has one of those shapes. -/
theorem directExecute_shape {s t : State} {w : InstrWord} (h : directExecute s w = .next t) :
    s.fault = none ∧ s.refused = false ∧ DirectShape s w t := by
  have hfault : s.fault = none := by
    by_contra hne
    simp [directExecute, Option.isSome_iff_ne_none, hne] at h
  have href : s.refused = false := by
    by_contra hne
    simp [directExecute, hfault, Bool.eq_true_of_not_eq_false hne] at h
  refine ⟨hfault, href, ?_⟩
  rw [directExecute_eq_runWord hfault href] at h
  cases hd : decode w with
  | error d =>
    rw [runWord_of_error hd] at h
    cases h
    exact .decodeRaised d hd
  | ok i =>
    rw [runWord_of_ok hd] at h
    cases hx : exec i s with
    | fault f => exact absurd hx (exec_ne_fault i s f)
    | refused r =>
      rw [hx] at h
      cases h
      exact .refused
    | next u =>
      rw [hx, finishInstr, haltConvention_direct] at h
      rcases exec_fault hx with hu | ⟨e, rfl⟩
      · rw [hfault] at hu
        rw [hu] at h
        cases h
        exact .completed i u hd hx hu
      · cases h
        exact .execRaised i e hd hx

/-! ### PC (10_state.md R18, 45_control_transfer.md R118) -/

theorem State.memRead_ok {s u : State} {a v : Word} (h : s.memRead a = .ok (v, u)) : u = s ∨ u = s.afterDraw := by
  rcases s.memRead_cases a with ⟨-, hr⟩ | ⟨-, -, hr⟩ | ⟨-, -, hr⟩ | ⟨-, hr⟩ | ⟨-, hr⟩ <;> rw [hr] at h <;> cases h
  · exact .inr rfl
  · exact .inl rfl

theorem State.memWrite_ok {s u : State} {a v : Word} (h : s.memWrite a v = .ok u) :
    u = s.print v ∨ (u = s.storeCell a.toNat v ∧ a.toNat < s.config.memSize) := by
  rcases s.memWrite_cases a v with ⟨-, hr⟩ | ⟨-, -, hr⟩ | ⟨-, -, hr⟩ | ⟨-, hr⟩ | ⟨hc, hr⟩ <;> rw [hr] at h <;> cases h
  · exact .inl rfl
  · obtain ⟨-, -, hmem⟩ := classify_eq_storage.mp hc
    exact .inr ⟨rfl, hmem⟩

/-- Every instruction but the two register jumps leaves PC a number of words away from where it was. -/
theorem exec_pc {i : Instr} {s t : State} (h : exec i s = .next t) (hjr : ∀ rs, i ≠ .jr rs) (hjalr : ∀ rs, i ≠ .jalr rs) :
    ∃ k : Word, t.pc = s.pc + k * 4 := by
  have stays {u : State} (hu : u.pc = s.pc) : ∃ k : Word, u.pc = s.pc + k * 4 := ⟨0, by simp [hu]⟩
  cases i with
  | add | sub | slt | sltu | mult | multu | mfhi | mflo =>
    cases h
    exact stays rfl
  | div | divu =>
    rcases State.finishDivide_next h with ⟨-, rfl⟩ | ⟨q, r, -, rfl⟩ <;> exact stays rfl
  | lis rd =>
    rcases Access.elim_next h with ⟨w, -, hk⟩ | ⟨e, -, rfl⟩
    · cases hk
      exact ⟨1, rfl⟩
    · exact stays rfl
  | jr rs => exact absurd rfl (hjr rs)
  | jalr rs => exact absurd rfl (hjalr rs)
  | lw rt rs imm =>
    rcases Access.elim_next h with ⟨⟨v, u⟩, hr, hk⟩ | ⟨e, -, rfl⟩
    · cases hk
      rcases State.memRead_ok hr with rfl | rfl <;> exact stays rfl
    · exact stays rfl
  | sw rt rs imm =>
    rcases Access.elim_next h with ⟨u, hw, hk⟩ | ⟨e, -, rfl⟩
    · cases hk
      rcases State.memWrite_ok hw with rfl | ⟨rfl, -⟩ <;> exact stays rfl
    · exact stays rfl
  | beq | bne =>
    cases h
    split
    · exact ⟨_, rfl⟩
    · exact stays rfl

/-- Moving by whole words keeps an address's remainder modulo 4, also where it wraps. -/
theorem toNat_add_mul_four_mod (a k : Word) : (a + k * 4).toNat % 4 = a.toNat % 4 := by
  simp only [BitVec.toNat_add, BitVec.toNat_mul, show (4 : Word).toNat = 4 from rfl]
  omega

theorem State.advancePc_pc_mod (s : State) : s.advancePc.pc.toNat % 4 = s.pc.toNat % 4 :=
  toNat_add_mul_four_mod s.pc 1

/-- Settles O38: the fetch moves PC by one word, and every instruction but the jumps by whole words. -/
theorem onlyJumpsMisalignPc : Obligations.OnlyJumpsMisalignPc := by
  intro s t hpc h hjump
  obtain ⟨-, hshape⟩ := step_shape h
  have hadvanced : s.advancePc.pc.toNat % 4 = 0 := s.advancePc_pc_mod.trans hpc
  cases hshape with
  | fetchRaised => exact hpc
  | refused => exact hpc
  | decodeRaised => exact hadvanced
  | execRaised => exact hadvanced
  | completed w i u hf hd hx =>
    obtain ⟨b, hb⟩ := haltConvention_eq_setRunning .cycle i (u.commit s.pc w)
    obtain ⟨k, hk⟩ := exec_pc hx (fun rs hi => (hjump w rs hf).1 (hi ▸ hd)) (fun rs hi => (hjump w rs hf).2 (hi ▸ hd))
    rw [hb, State.setRunning_pc, State.commit_pc, hk, toNat_add_mul_four_mod]
    exact hadvanced

/-! ### Faults and refusals of a cycle (41_core_cycle.md R96, R97) -/

/-- The host's `cycle` gives back what the state it leaves stands for (log 36). -/
theorem hostCycle_of_step {s t : State} (h : step s = .next t) : hostCommand .cycle s = .next (t, replyAfter t) :=
  ofStep_eq_next.mpr ⟨h, rfl⟩

/-- A completed cycle records neither a fault nor a refusal. -/
theorem completed_fault_refused {s u : State} {i : Instr} {a : Word} {w : InstrWord} (he : s.enabled = true)
    (hx : exec i s.advancePc = .next u) (hu : u.fault = none) :
    (haltConvention .cycle i (u.commit a w)).fault = none ∧ (haltConvention .cycle i (u.commit a w)).refused = false := by
  obtain ⟨-, -, href⟩ := s.enabled_iff.mp he
  obtain ⟨-, -, -, hsame, -, -⟩ := exec_control hx
  obtain ⟨b, hb⟩ := haltConvention_eq_setRunning .cycle i (u.commit a w)
  rw [hb]
  exact ⟨hu, hsame.trans href⟩

/-- Settles O41: the two faults by the forward rules of the cycle, and every faulting cycle by its shape. -/
theorem faultIsPrecise : Obligations.FaultIsPrecise := by
  refine ⟨fun s he hpc hmem hmmio => step_of_fetch_raised he (State.fetch32_of_outOfBounds hpc hmmio hmem),
    fun s w d he hf hd => ?_, fun s t h hfault => ?_⟩
  · rw [step_of_fetch_ok he hf, runWord_of_error hd, State.raise, State.advancePc_instrAddr]
    rfl
  · obtain ⟨he, hshape⟩ := step_shape h
    cases hshape with
    | fetchRaised e hf =>
      exact ⟨e, by rw [hf]; rfl, by simp [hf], by simp [hf], hostCycle_of_step h⟩
    | refused => exact absurd (s.enabled_iff.mp he).2.1 hfault
    | decodeRaised w d hf hd =>
      refine ⟨.decode d, by rw [State.raise, State.advancePc_instrAddr, hf]; rfl, ?_, by simp [hf], hostCycle_of_step h⟩
      intro w' hw' d' hd'
      obtain rfl : w = w' := by simpa [hf] using hw'
      simpa [hd] using hd'
    | execRaised w i e hf hd hx =>
      refine ⟨e, by rw [State.raise, State.advancePc_instrAddr, hf]; rfl, ?_, by simp [hf], hostCycle_of_step h⟩
      intro w' hw' d' hd'
      obtain rfl : w = w' := by simpa [hf] using hw'
      simp [hd] at hd'
    | completed w i u hf hd hx hu => exact absurd (completed_fault_refused he hx hu).1 hfault

/-- Settles O42: the refused fetch by the forward rule, and the one shape of a cycle that sets the mark. -/
theorem refusalLeavesStateAsBefore : Obligations.RefusalLeavesStateAsBefore := by
  refine ⟨fun s he hpc hmmio => step_of_fetch_refused he (State.fetch32_of_mmio hpc hmmio), fun s t h hmark => ?_⟩
  obtain ⟨he, hshape⟩ := step_shape h
  obtain ⟨-, hfault, href⟩ := s.enabled_iff.mp he
  cases hshape with
  | refused => exact ⟨rfl, (hostCycle_of_step h).trans (by rw [replyAfter_of_refused (t := s.markRefused) hfault rfl])⟩
  | completed w i u hf hd hx hu => simp [completed_fault_refused he hx hu] at hmark
  | fetchRaised | decodeRaised | execRaised => simp [href] at hmark

/-! ### Misaligned and high addresses (20_memory.md R40, R35) -/

/-- Settles O32: the misaligned answer of each access, taken on by the instruction, the cycle and the host. -/
theorem misalignedAccessHasNoOtherEffect : Obligations.MisalignedAccessHasNoOtherEffect := fun s =>
  ⟨fun _ _ _ h => ⟨lw_raises_of_misaligned h, sw_raises_of_misaligned h⟩,
    fun h => ⟨lis_raises_of_misaligned h, fun he => step_of_fetch_raised he (State.fetch32_of_misaligned h)⟩,
    fun a v h => ⟨by simp [hostCommand, hostLoadWord, State.memRead_of_misaligned h],
      by simp [hostCommand, hostStoreWord, State.memWrite_of_misaligned h]⟩⟩

/-- What well-formed parameters say of the MMIO range: it starts at 2^32 or below, and both ports lie below 2^32 (R6). -/
theorem Config.wellFormed_bounds {c : Config} (h : c.wellFormed = true) :
    c.mmioThreshold ≤ 2 ^ 32 ∧ c.inputPort < 2 ^ 32 ∧ c.outputPort < 2 ^ 32 := by
  simp only [Config.wellFormed, Config.thresholdOk, Config.portOk, Bool.and_eq_true, decide_eq_true_eq] at h
  omega

/-- Settles O33: an address of 2^32 or more lies in the MMIO range and is no port. -/
theorem highAddressesAreRefused : Obligations.HighAddressesAreRefused := by
  intro s hwf
  obtain ⟨hthreshold, hin, hout⟩ := Config.wellFormed_bounds hwf
  refine ⟨fun rt rs imm a ha halign hhigh => ?_, fun halign hhigh he => ?_⟩
  · subst ha
    have hmmio : DataMmio s (s.effectiveAddress rs imm) := ⟨halign, hthreshold.trans hhigh⟩
    exact ⟨exec_lw_of_refused (State.memRead_of_mmio hmmio (hin.trans_le hhigh).ne'),
      exec_sw_of_refused (State.memWrite_of_mmio hmmio (hout.trans_le hhigh).ne')⟩
  · exact step_of_fetch_refused he (State.fetch32_of_mmio halign (hthreshold.trans hhigh))

/-! ### The commit (41_core_cycle.md R95, R29) -/

theorem appendTrace_eq (l : List TraceEntry) (e : TraceEntry) :
    appendTrace l e = (if l.length < 100 then l else l.tail) ++ [e] := rfl

/-- Settles O43: of the shapes of a cycle and of a direct execute, the completed one commits and records neither fault nor refusal,
and every other leaves counter and trace and records one. -/
theorem commitHappensExactlyOnCompletion : Obligations.CommitHappensExactlyOnCompletion := by
  refine ⟨fun s t h => ?_, fun s t w h => ?_⟩
  · obtain ⟨he, hshape⟩ := step_shape h
    cases hshape with
    | fetchRaised | decodeRaised | execRaised | refused => rw [if_neg (by simp)]; exact ⟨rfl, rfl⟩
    | completed w i u hf hd hx hu =>
      obtain ⟨b, hb⟩ := haltConvention_eq_setRunning .cycle i (u.commit s.pc w)
      obtain ⟨-, -, -, -, hcount, htrace⟩ := exec_control hx
      rw [if_pos (completed_fault_refused he hx hu), hb]
      refine ⟨w, hf, congrArg (· + 1) hcount, ?_⟩
      rw [State.setRunning_trace, State.commit_trace, htrace, appendTrace_eq, State.advancePc_trace]
  · obtain ⟨-, href, hshape⟩ := directExecute_shape h
    cases hshape with
    | decodeRaised | execRaised | refused => rw [if_neg (by simp)]; exact ⟨rfl, rfl⟩
    | completed i u hd hx hu =>
      obtain ⟨-, -, -, hsame, hcount, htrace⟩ := exec_control hx
      rw [if_pos ⟨hu, hsame.trans href⟩]
      refine ⟨congrArg (· + 1) hcount, ?_⟩
      rw [State.commit_trace, htrace, appendTrace_eq]
      rfl

/-! ### General registers (10_state.md R12) -/

/-- Settles O46: the shapes of an execute stage write the row's register or none. -/
theorem generalRegisterWrites : Obligations.GeneralRegisterWrites := by
  intro i s t h r hr
  have unwritten {u : State} {rd : Reg} {v : Word} (hrd : writesReg i = some rd) : (u.writeReg rd v).reg r = u.reg r := by
    have hne : r ≠ rd := fun e => hr (e ▸ hrd)
    rw [State.writeReg_reg, if_neg fun hc => hne hc.1]
  cases exec_shape h with
  | wroteReg rd v hrd => exact unwritten hrd
  | wroteDraw rd v hrd => exact unwritten hrd
  | wroteRegPc rd v p hrd => exact unwritten hrd
  | _ => rfl

/-! ### The errors of a cycle (60_exceptions.md R126 to R130) -/

theorem State.memRead_raised {s : State} {a : Word} {e : Error} (h : s.memRead a = .raised e) :
    (a.toNat % 16 ≠ 0 ∧ e = .alignment a 16) ∨ (DataOutOfBounds s a ∧ e = .outOfBounds a) := by
  rcases s.memRead_cases a with ⟨hc, hr⟩ | ⟨-, -, hr⟩ | ⟨-, -, hr⟩ | ⟨hc, hr⟩ | ⟨-, hr⟩ <;> rw [hr] at h <;> cases h
  · exact .inl ⟨classify_eq_misaligned.mp hc, rfl⟩
  · exact .inr ⟨classify_eq_outOfBounds.mp hc, rfl⟩

theorem State.memWrite_raised {s : State} {a v : Word} {e : Error} (h : s.memWrite a v = .raised e) :
    (a.toNat % 16 ≠ 0 ∧ e = .alignment a 16) ∨ (DataOutOfBounds s a ∧ e = .outOfBounds a) := by
  rcases s.memWrite_cases a v with ⟨hc, hr⟩ | ⟨-, -, hr⟩ | ⟨-, -, hr⟩ | ⟨hc, hr⟩ | ⟨-, hr⟩ <;> rw [hr] at h <;> cases h
  · exact .inl ⟨classify_eq_misaligned.mp hc, rfl⟩
  · exact .inr ⟨classify_eq_outOfBounds.mp hc, rfl⟩

theorem State.fetch32_raised {s : State} {a : Word} {e : Error} (h : s.fetch32 a = .raised e) :
    (a.toNat % 4 ≠ 0 ∧ e = .alignment a 4)
      ∨ ((s.config.memSize ≤ a.toNat ∧ a.toNat < s.config.mmioThreshold) ∧ e = .outOfBounds a) := by
  rcases s.fetch32_cases a with ⟨hc, hr⟩ | ⟨-, hr⟩ | ⟨hc, hr⟩ | ⟨-, hr⟩ <;> rw [hr] at h <;> cases h
  · exact .inl ⟨classify_eq_misaligned.mp hc, rfl⟩
  · obtain ⟨-, hmmio, hmem⟩ := classify_eq_outOfBounds.mp hc
    exact .inr ⟨⟨hmem, hmmio⟩, rfl⟩

/-- An address that was fetched from is a multiple of 4. -/
theorem State.fetch32_ok_aligned {s : State} {a : Word} {w : InstrWord} (h : s.fetch32 a = .ok w) : a.toNat % 4 = 0 := by
  by_contra hne
  rw [State.fetch32_of_misaligned hne] at h
  cases h

/-- The errors of the execute stage, each with its instruction and its cause. -/
inductive ExecError (i : Instr) (s : State) : Error → Prop where
  | zeroDivisor (q r : Reg) (hi : i = .div q r ∨ i = .divu q r) (hz : s.reg r = 0) : ExecError i s (.divideByZero r)
  | dataMisaligned (rt rs : Reg) (imm : BitVec 16) (hi : i = .lw rt rs imm ∨ i = .sw rt rs imm)
      (ha : (s.effectiveAddress rs imm).toNat % 16 ≠ 0) : ExecError i s (.alignment (s.effectiveAddress rs imm) 16)
  | dataOutOfBounds (rt rs : Reg) (imm : BitVec 16) (hi : i = .lw rt rs imm ∨ i = .sw rt rs imm)
      (ha : DataOutOfBounds s (s.effectiveAddress rs imm)) : ExecError i s (.outOfBounds (s.effectiveAddress rs imm))
  | literalMisaligned (rd : Reg) (hi : i = .lis rd) (ha : s.pc.toNat % 4 ≠ 0) : ExecError i s (.alignment s.pc 4)
  | literalOutOfBounds (rd : Reg) (hi : i = .lis rd)
      (ha : s.config.memSize ≤ s.pc.toNat ∧ s.pc.toNat < s.config.mmioThreshold) : ExecError i s (.outOfBounds s.pc)

/-- An execute stage that raises does so for one of those causes. -/
theorem exec_error {i : Instr} {s : State} {e : Error} (hs : s.fault = none) (h : exec i s = .next (s.raise e)) :
    ExecError i s e := by
  have completed {u : State} (he : s.raise e = u) (hu : u.fault = s.fault) : False := by
    have hfault := congrArg State.fault he
    rw [State.raise_fault, hu, hs] at hfault
    cases hfault
  have raise_inj {e' : Error} (he : s.raise e = s.raise e') : e = e' := by
    simpa using congrArg State.fault he
  cases i with
  | add | sub | slt | sltu | mult | multu | mfhi | mflo | jr | jalr =>
    exact (completed (Host.Outcome.next.inj h).symm rfl).elim
  | beq => exact (completed (Host.Outcome.next.inj h).symm (by split <;> rfl)).elim
  | bne => exact (completed (Host.Outcome.next.inj h).symm (by split <;> rfl)).elim
  | div q r =>
    rcases State.finishDivide_next h with ⟨hz, he⟩ | ⟨_, _, -, he⟩
    · exact raise_inj he ▸ .zeroDivisor q r (.inl rfl) (divideS_eq_none.mp hz)
    · exact (completed he rfl).elim
  | divu q r =>
    rcases State.finishDivide_next h with ⟨hz, he⟩ | ⟨_, _, -, he⟩
    · exact raise_inj he ▸ .zeroDivisor q r (.inr rfl) (divideU_eq_none.mp hz)
    · exact (completed he rfl).elim
  | lis rd =>
    rcases Access.elim_next h with ⟨w, -, hk⟩ | ⟨e', hr, he⟩
    · exact (completed (Host.Outcome.next.inj hk).symm rfl).elim
    · obtain rfl := raise_inj he
      rcases State.fetch32_raised hr with ⟨ha, rfl⟩ | ⟨ha, rfl⟩
      · exact .literalMisaligned rd rfl ha
      · exact .literalOutOfBounds rd rfl ha
  | lw rt rs imm =>
    rcases Access.elim_next h with ⟨⟨v, u⟩, hr, hk⟩ | ⟨e', hr, he⟩
    · rcases State.memRead_ok hr with rfl | rfl <;> exact (completed (Host.Outcome.next.inj hk).symm rfl).elim
    · obtain rfl := raise_inj he
      rcases State.memRead_raised hr with ⟨ha, rfl⟩ | ⟨ha, rfl⟩
      · exact .dataMisaligned rt rs imm (.inl rfl) ha
      · exact .dataOutOfBounds rt rs imm (.inl rfl) ha
  | sw rt rs imm =>
    rcases Access.elim_next h with ⟨u, hr, hk⟩ | ⟨e', hr, he⟩
    · rcases State.memWrite_ok hr with rfl | ⟨rfl, -⟩ <;> exact (completed (Host.Outcome.next.inj hk).symm rfl).elim
    · obtain rfl := raise_inj he
      rcases State.memWrite_raised hr with ⟨ha, rfl⟩ | ⟨ha, rfl⟩
      · exact .dataMisaligned rt rs imm (.inr rfl) ha
      · exact .dataOutOfBounds rt rs imm (.inr rfl) ha

/-- The errors that a cycle can record, by its stages. -/
inductive CycleError (s : State) : Error → Prop where
  | fetchMisaligned (ha : s.pc.toNat % 4 ≠ 0) : CycleError s (.alignment s.pc 4)
  | fetchOutOfBounds (ha : s.config.memSize ≤ s.pc.toNat ∧ s.pc.toNat < s.config.mmioThreshold) :
      CycleError s (.outOfBounds s.pc)
  | decode (w : InstrWord) (d : DecodeError) (hf : s.fetch32 s.pc = .ok w) (hd : Sys2Proof.decode w = .error d) :
      CycleError s (.decode d)
  | exec (w : InstrWord) (i : Instr) (e : Error) (hf : s.fetch32 s.pc = .ok w) (hd : Sys2Proof.decode w = .ok i)
      (hx : ExecError i s.advancePc e) : CycleError s e

theorem step_error {s t : State} {f : FaultRecord} (h : step s = .next t) (hf : t.fault = some f) :
    CycleError s f.error := by
  obtain ⟨he, hshape⟩ := step_shape h
  obtain ⟨-, hfault, -⟩ := s.enabled_iff.mp he
  cases hshape with
  | fetchRaised e hfetch =>
    cases hf
    rcases State.fetch32_raised hfetch with ⟨ha, rfl⟩ | ⟨ha, rfl⟩
    · exact .fetchMisaligned ha
    · exact .fetchOutOfBounds ha
  | refused => simp [hfault] at hf
  | decodeRaised w d hfetch hd =>
    cases hf
    exact .decode w d hfetch hd
  | execRaised w i e hfetch hd hx =>
    cases hf
    exact .exec w i e hfetch hd (exec_error hfault hx)
  | completed w i u hfetch hd hx hu => simp [completed_fault_refused he hx hu] at hf

theorem decode_eq_or_of_eq_or {w : InstrWord} {i j k : Instr} (hd : decode w = .ok i) (hi : i = j ∨ i = k) :
    decode w = .ok j ∨ decode w = .ok k := by
  rcases hi with rfl | rfl
  · exact .inl hd
  · exact .inr hd

/-- Settles O45: each kind of error, among those a cycle can record. -/
theorem errorsOfACycle : Obligations.ErrorsOfACycle := by
  intro s t f h hf
  have herr := step_error h hf
  generalize f.error = err at herr
  refine ⟨?_, ?_, ?_, ?_, ?_⟩
  · rintro k rfl
    cases herr with
    | exec w i _ hfetch hd hx => cases hx
  · rintro d rfl
    cases herr with
    | decode w _ hfetch hd => exact ⟨w, hfetch, hd⟩
    | exec w i _ hfetch hd hx => cases hx
  · rintro r rfl
    cases herr with
    | exec w i _ hfetch hd hx =>
      cases hx with
      | zeroDivisor q _ hi hz => exact ⟨w, i, hfetch, hd, ⟨q, hi⟩, hz⟩
  · rintro a n rfl
    cases herr with
    | fetchMisaligned ha => exact ⟨ha, .inl ⟨rfl, rfl⟩⟩
    | exec w i _ hfetch hd hx =>
      cases hx with
      | dataMisaligned rt rs imm hi ha =>
        exact ⟨ha, .inr ⟨rfl, w, rt, rs, imm, hfetch, decode_eq_or_of_eq_or hd hi, rfl⟩⟩
      | literalMisaligned rd hi ha =>
        exact absurd (s.advancePc_pc_mod.trans (State.fetch32_ok_aligned hfetch)) ha
  · rintro a rfl
    cases herr with
    | fetchOutOfBounds ha => exact ⟨ha.1, ha.2, .inl rfl⟩
    | exec w i _ hfetch hd hx =>
      cases hx with
      | dataOutOfBounds rt rs imm hi ha =>
        obtain ⟨-, hmmio, hmem⟩ := ha
        exact ⟨hmem, hmmio, .inr (.inl ⟨w, rt, rs, imm, hfetch, decode_eq_or_of_eq_or hd hi, rfl⟩)⟩
      | literalOutOfBounds rd hi ha =>
        exact ⟨ha.1, ha.2, .inr (.inr ⟨w, rd, hfetch, hi ▸ hd, rfl⟩)⟩

/-! ### What execution does not look at (10_state.md R28, R30; 20_memory.md R48) -/

/-- The components that a cycle writes but never reads. -/
inductive Unread where
  | trace
  | instrCount
  | written
  | outLog

/-- The state with one of them emptied. -/
def State.without (s : State) : Unread → State
  | .trace => { s with trace := [] }
  | .instrCount => { s with instrCount := 0 }
  | .written => { s with written := [] }
  | .outLog => { s with outLog := [] }

section unread

variable {f : Unread} {s t : State}

/-- States that differ in `f` only agree on a reading that does not look at `f`. -/
theorem Unread.read_eq {α : Type} {g : State → α} (hg : ∀ u : State, g (u.without f) = g u)
    (h : t.without f = s.without f) : g t = g s := by
  rw [← hg t, h, hg s]

/-- States that differ in `f` only still do after an update that carries nothing from `f` to another component. -/
theorem Unread.update_eq {g : State → State} (hg : ∀ u : State, (g (u.without f)).without f = (g u).without f)
    (h : t.without f = s.without f) : (g t).without f = (g s).without f := by
  rw [← hg t, h, hg s]

end unread

/-- Differing in one unread component only is kept by the execute stage: no reading looks at the component, and an update that
starts from it ends in it. -/
theorem execSim_without (f : Unread) : ExecSim fun s t => t.without f = s.without f where
  config h := Unread.read_eq (g := (·.config)) (fun _ => by cases f <;> rfl) h
  reg h r := Unread.read_eq (g := (·.reg r)) (fun _ => by cases f <;> rfl) h
  pc h := Unread.read_eq (g := (·.pc)) (fun _ => by cases f <;> rfl) h
  cell h a := Unread.read_eq (g := (·.cell a)) (fun _ => by cases f <;> rfl) h
  draws h := Unread.read_eq (g := (·.draws)) (fun _ => by cases f <;> rfl) h
  writeReg h r v := Unread.update_eq (g := (·.writeReg r v)) (fun _ => by cases f <;> rfl) h
  setPc h p := Unread.update_eq (g := (·.setPc p)) (fun _ => by cases f <;> rfl) h
  raiseAt h e a := Unread.update_eq (g := (·.raiseAt e a)) (fun _ => by cases f <;> rfl) h
  storeCell h a v := Unread.update_eq (g := (·.storeCell a v)) (fun _ => by cases f <;> rfl) h
  afterDraw h := Unread.update_eq (g := (·.afterDraw)) (fun _ => by cases f <;> rfl) h
  print h v := Unread.update_eq (g := (·.print v)) (fun _ => by cases f <;> rfl) h

/-- The same for a cycle. -/
theorem stepSim_without (f : Unread) : StepSim fun s t => t.without f = s.without f where
  toExecSim := execSim_without f
  hi h := Unread.read_eq (g := (·.hi)) (fun _ => by cases f <;> rfl) h
  lo h := Unread.read_eq (g := (·.lo)) (fun _ => by cases f <;> rfl) h
  fault h := Unread.read_eq (g := (·.fault)) (fun _ => by cases f <;> rfl) h
  refused h := Unread.read_eq (g := (·.refused)) (fun _ => by cases f <;> rfl) h
  running h := Unread.read_eq (g := (·.running)) (fun _ => by cases f <;> rfl) h
  setHiLo h x y := Unread.update_eq (g := (·.setHiLo x y)) (fun _ => by cases f <;> rfl) h
  setRunning h b := Unread.update_eq (g := (·.setRunning b)) (fun _ => by cases f <;> rfl) h
  markRefused h := Unread.update_eq (g := (·.markRefused)) (fun _ => by cases f <;> rfl) h
  commit h a w := Unread.update_eq (g := (·.commit a w)) (fun _ => by cases f <;> rfl) h

/-- Where related states look alike through `g`, so do related outcomes. -/
theorem OutcomeRel.mapNext_eq {α : Type} {R : State → State → Prop} {g : State → α}
    {x y : Host.Outcome State Fault Refusal} (h : OutcomeRel R x y) (hg : ∀ s t, R s t → g t = g s) :
    mapNext g y = mapNext g x := by
  cases h with
  | next h => exact congrArg Host.Outcome.next (hg _ _ h)
  | fault f => rfl
  | refused r => rfl

/-- A cycle ends the same way from states that differ in an unread component, and in states that differ in it only. -/
theorem step_without {f : Unread} {s t : State} (h : t.without f = s.without f) :
    mapNext (·.without f) (step t) = mapNext (·.without f) (step s) :=
  (step_sim (stepSim_without f) h).mapNext_eq fun _ _ => id

/-- Settles O50: each of the four is unread. -/
theorem observationsDoNotAffectExecution : Obligations.ObservationsDoNotAffectExecution := fun _ =>
  ⟨fun _ => step_without (f := .trace) rfl, fun _ => step_without (f := .instrCount) rfl,
    fun _ => step_without (f := .written) rfl, fun _ => step_without (f := .outLog) rfl⟩

end Sys2Proof.Machine

/-!
PROOFS. Families 41_core_cycle.md R98 to R102 (the halt and how runs end) and R100 (the direct execute beside the cycle). A run is its
cycles: it goes on while each state stands going, and the first state that does not is its one end.
-/

namespace Sys2Proof.Machine

/-! ### The halting cycle (41_core_cycle.md R98) -/

theorem step_of_halt {s : State} {w : InstrWord} (he : s.enabled = true) (hf : s.fetch32 s.pc = .ok w)
    (hd : decode w = .ok (.jr 0)) : step s = .next (((s.advancePc.setPc 0).commit s.pc w).setRunning false) := by
  obtain ⟨-, hfault, -⟩ := s.enabled_iff.mp he
  rw [step_of_fetch_ok he hf, runWord_of_ok hd, exec_jr, State.reg_zero, State.advancePc_instrAddr, finishInstr,
    haltConvention_cycle_jr_zero, if_neg (by simp [hfault])]

/-- A cycle that leaves the core not running has completed a `jr $0`. -/
theorem exists_halt_of_step {s t : State} (h : step s = .next t) (hr : t.running = false) :
    ∃ w, s.fetch32 s.pc = .ok w ∧ decode w = .ok (.jr 0) := by
  obtain ⟨he, hshape⟩ := step_shape h
  obtain ⟨hrun, -, -⟩ := s.enabled_iff.mp he
  cases hshape with
  | completed w i u hf hd hx =>
    refine ⟨w, hf, ?_⟩
    by_contra hne
    obtain ⟨-, hsame, -⟩ := exec_control hx
    rw [haltConvention_of_ne (fun hi => hne (hi ▸ hd)), State.commit_running, hsame, State.advancePc_running, hrun] at hr
    cases hr
  | fetchRaised | decodeRaised | execRaised | refused => simp [hrun] at hr

/-- A cycle that leaves the core not running ends the run normally, with PC 0. -/
theorem endsAt_one_of_step {s t : State} (h : step s = .next t) (hr : t.running = false) :
    t.pc = 0 ∧ s.EndsAt 1 t .normal := by
  obtain ⟨he, -⟩ := step_shape h
  obtain ⟨-, hfault, href⟩ := s.enabled_iff.mp he
  obtain ⟨w, hf, hd⟩ := exists_halt_of_step h hr
  have ht := h.symm.trans (step_of_halt he hf hd)
  refine ⟨by cases ht; rfl, State.afterCycles_succ h 0, fun j hj => ?_, Nat.one_pos, ?_⟩
  · obtain rfl : j = 0 := by omega
    exact ⟨s, rfl, State.standing_eq_going.mpr he⟩
  · rw [State.standing_eq_idle]
    exact ⟨hr, by cases ht; exact hfault, by cases ht; exact href⟩

/-! ### The end of a run (41_core_cycle.md R102) -/

/-- The kind of end that a state which is not going stands for. -/
def RunEnd.ofStanding : Standing → Option RunEnd
  | .going => none
  | .idle => some .normal
  | .faulted => some .faulted
  | .noMeaning => some .noMeaning

/-- The last state's standing says which end it is. -/
theorem RunEnd.ofStanding_of_holds {e : RunEnd} {k : Nat} {t : State} (h : e.holds k t) :
    RunEnd.ofStanding t.standing = some e := by
  cases e with
  | normal => rw [h.2]; rfl
  | faulted => rw [show t.standing = .faulted from h]; rfl
  | noMeaning => rw [show t.standing = .noMeaning from h]; rfl

/-- A state that is not going ends a run, if it is not an idle state before any cycle. -/
theorem RunEnd.exists_holds {k : Nat} {t : State} (h : t.standing ≠ .going) (hk : t.standing = .idle → 0 < k) :
    ∃ e : RunEnd, e.holds k t := by
  cases hs : t.standing with
  | going => exact absurd hs h
  | idle => exact ⟨.normal, hk hs, hs⟩
  | faulted => exact ⟨.faulted, hs⟩
  | noMeaning => exact ⟨.noMeaning, hs⟩

/-- After cycles that all were going there is one state more. -/
theorem State.exists_afterCycles {s : State} {k : Nat}
    (h : ∀ j, j < k → ∃ u, s.afterCycles j = some u ∧ u.standing = .going) : ∃ t, s.afterCycles k = some t := by
  cases k with
  | zero => exact ⟨s, rfl⟩
  | succ j =>
    obtain ⟨u, hu, hgoing⟩ := h j (Nat.lt_succ_self j)
    obtain ⟨t, ht⟩ := step_next_of_enabled (State.standing_eq_going.mp hgoing)
    exact ⟨t, State.afterCycles_succ_eq_some.mpr ⟨u, hu, ht⟩⟩

/-- A run that is not infinite ends at the first state that is not going. -/
theorem State.endsAt_of_not_runsForever {s : State} (hrun : s.running = true) (h : ¬ s.RunsForever) :
    ∃ k t e, s.EndsAt k t e := by
  classical
  have hstops : ∃ k, ¬ ∃ t, s.afterCycles k = some t ∧ t.standing = .going := not_forall.mp h
  obtain ⟨k, hk, hfirst⟩ : ∃ k, (¬ ∃ t, s.afterCycles k = some t ∧ t.standing = .going)
      ∧ ∀ j, j < k → ∃ u, s.afterCycles j = some u ∧ u.standing = .going :=
    ⟨Nat.find hstops, Nat.find_spec hstops, fun j hj => not_not.mp (Nat.find_min hstops hj)⟩
  obtain ⟨t, ht⟩ := State.exists_afterCycles hfirst
  have hidle : t.standing = .idle → 0 < k := by
    intro hidle
    refine Nat.pos_of_ne_zero fun hzero => ?_
    subst hzero
    cases ht
    simp [State.standing_eq_idle, hrun] at hidle
  obtain ⟨e, he⟩ := RunEnd.exists_holds (fun hgoing => hk ⟨t, ht, hgoing⟩) hidle
  exact ⟨k, t, e, ht, hfirst, he⟩

/-- At an end no cycle is enabled any more. -/
theorem State.EndsAt.not_going {s t u : State} {k : Nat} {e : RunEnd} (h : s.EndsAt k t e)
    (hu : s.afterCycles k = some u) : u.standing ≠ .going := by
  obtain rfl : t = u := Option.some.inj (h.reached.symm.trans hu)
  exact RunEnd.holds_not_going h.ending

/-- No end comes after another: the state there would be going. -/
theorem State.EndsAt.not_earlier {s t t' : State} {k k' : Nat} {e e' : RunEnd} (h : s.EndsAt k t e) (h' : s.EndsAt k' t' e') :
    ¬ k < k' := by
  intro hlt
  obtain ⟨u, hu, hgoing⟩ := h'.first k hlt
  exact h.not_going hu hgoing

theorem State.EndsAt.unique {s t t' : State} {k k' : Nat} {e e' : RunEnd} (h : s.EndsAt k t e) (h' : s.EndsAt k' t' e') :
    k = k' ∧ t = t' ∧ e = e' := by
  obtain rfl : k = k' := Nat.le_antisymm (Nat.not_lt.mp (h'.not_earlier h)) (Nat.not_lt.mp (h.not_earlier h'))
  obtain rfl : t = t' := Option.some.inj (h.reached.symm.trans h'.reached)
  have he := (RunEnd.ofStanding_of_holds h.ending).symm.trans (RunEnd.ofStanding_of_holds h'.ending)
  exact ⟨rfl, rfl, Option.some.inj he⟩

/-- A normal end comes right after a cycle that fetched `jr $0`, with PC 0. -/
theorem State.EndsAt.normal_last_cycle {s t : State} {k : Nat} (h : s.EndsAt k t .normal) :
    t.pc = 0 ∧ ∃ j u w, k = j + 1 ∧ s.afterCycles j = some u ∧ u.fetch32 u.pc = .ok w ∧ decode w = .ok (.jr 0) := by
  obtain ⟨hpos, hidle⟩ := h.ending
  obtain ⟨hr, -, -⟩ := State.standing_eq_idle.mp hidle
  obtain ⟨j, rfl⟩ := Nat.exists_eq_succ_of_ne_zero hpos.ne'
  obtain ⟨u, hu, hstep⟩ := State.afterCycles_succ_eq_some.mp h.reached
  obtain ⟨w, hf, hd⟩ := exists_halt_of_step hstep hr
  exact ⟨(endsAt_one_of_step hstep hr).1, j, u, w, rfl, hu, hf, hd⟩

/-- A run starts with the run flag set, by the host's `start`. -/
theorem State.RunStart.running {s : State} (h : s.RunStart) : s.running = true := by
  obtain ⟨p, -, hstart⟩ := h
  cases hstart
  rfl

/-- Settles O44: the halting cycle in both directions, and the first state that is not going as a run's one end. (The
model's `haltConvention` has the name this theorem would have.) -/
theorem haltConventionHolds : Obligations.HaltConvention := by
  refine ⟨fun s t h => ⟨⟨exists_halt_of_step h, fun ⟨w, hf, hd⟩ => ?_⟩, endsAt_one_of_step h⟩,
    fun s => State.RunStart.running, fun s hrun => ⟨?_, ?_, fun k t e k' t' e' => State.EndsAt.unique,
      fun k t => State.EndsAt.normal_last_cycle⟩⟩
  · obtain ⟨he, -⟩ := step_shape h
    cases h.symm.trans (step_of_halt he hf hd)
    rfl
  · by_cases h : s.RunsForever
    · exact .inl h
    · exact .inr (State.endsAt_of_not_runsForever hrun h)
  · intro k t e hend hforever
    obtain ⟨u, hu, hgoing⟩ := hforever k
    exact hend.not_going hu hgoing

/-! ### The direct execute beside the cycle (41_core_cycle.md R100) -/

/-- States that differ in the run flag only are related for every execute stage. -/
theorem execSim_running (b : Bool) : ExecSim fun s t => t = s.setRunning b := by
  constructor <;> (rintro s _ rfl; intros; rfl)

theorem exec_setRunning (i : Instr) (s : State) (b : Bool) :
    exec i (s.setRunning b) = mapNext (·.setRunning b) (exec i s) :=
  (exec_sim (execSim_running b) rfl i (fun _ _ _ => rfl) (fun _ => rfl) (fun _ => rfl)).eq_mapNext

/-- What a direct execute makes of the execute stage's outcome. -/
theorem directExecute_of_ok {s : State} {w : InstrWord} {i : Instr} (hf : s.fault = none) (hr : s.refused = false)
    (hd : decode w = .ok i) : directExecute s w = finishInstr .direct s s.instrAddr w i (exec i s) := by
  rw [directExecute_eq_runWord hf hr, runWord_of_ok hd]

/-- A direct execute never changes the run flag. -/
theorem directExecute_running {s t : State} {w : InstrWord} (h : directExecute s w = .next t) : t.running = s.running := by
  obtain ⟨-, -, hshape⟩ := directExecute_shape h
  cases hshape with
  | completed i u hd hx =>
    obtain ⟨-, hsame, -⟩ := exec_control hx
    exact hsame
  | _ => rfl

/-- Where a started core's cycle fetches a word other than `jr $0`, a direct execute at the advanced PC gives the cycle's state but
for the run flag, unless it is refused. -/
theorem step_of_directExecute {s t : State} {w : InstrWord} (hfault : s.fault = none) (href : s.refused = false)
    (hf : s.fetch32 s.pc = .ok w) (hne : decode w ≠ .ok (.jr 0)) (h : directExecute s.advancePc w = .next t)
    (hr : t.refused = false) : step (s.setRunning true) = .next (t.setRunning true) := by
  have hstarted : (s.setRunning true).enabled = true := (State.enabled_iff _).mpr ⟨rfl, hfault, href⟩
  have hstep : step (s.setRunning true) = runWord .cycle (s.setRunning true) (s.advancePc.setRunning true) w :=
    step_of_fetch_ok hstarted hf
  rw [directExecute_eq_runWord (s := s.advancePc) hfault href] at h
  rw [hstep]
  cases hd : decode w with
  | error d =>
    rw [runWord_of_error hd] at h ⊢
    cases h
    rfl
  | ok i =>
    have hi : i ≠ .jr 0 := fun e => hne (e ▸ hd)
    rw [runWord_of_ok hd] at h ⊢
    rw [exec_setRunning]
    cases hx : exec i s.advancePc with
    | fault f => exact absurd hx (exec_ne_fault i _ f)
    | refused r =>
      rw [hx] at h
      cases h
      cases hr
    | next u =>
      rw [hx, finishInstr, haltConvention_direct] at h
      cases h
      rw [mapNext, finishInstr, haltConvention_of_ne hi]
      exact congrArg Host.Outcome.next (apply_ite (State.setRunning · true) _ u (u.commit _ w)).symm

/-- Settles O60: each ending of a direct execute by its stages, and the cycle's stages beside them. -/
theorem directExecuteIsTheCyclesStages : Obligations.DirectExecuteIsTheCyclesStages := by
  intro s w hfault href
  refine ⟨fun d hd => ?_, fun i t hd hx => ?_, fun i r hd hx => ?_, fun t => directExecute_running,
    fun t hf hne h hr => step_of_directExecute hfault href hf hne h hr⟩
  · rw [directExecute_eq_runWord hfault href, runWord_of_error hd]
    rfl
  · rw [directExecute_of_ok hfault href hd, hx, finishInstr, haltConvention_direct]
    rfl
  · rw [directExecute_of_ok hfault href hd, hx]
    rfl

end Sys2Proof.Machine

/-!
PROOFS. Families 70_reset_and_hazards.md and the machine's invariant. What a host command can do is said once (`hostCommand_shape`);
the invariant, and what commands do to the fault record, the refusal mark and the run flag, are case analyses over it.
-/

namespace Sys2Proof.Machine

/-! ### What a host command can do (70_reset_and_hazards.md R146 to R155) -/

/-- The state and the reply that a host command leaves from `s`. -/
inductive HostShape (s : State) : HostCommand → State → HostReply → Prop where
  | construct : HostShape s .construct s.constructAgain .done
  | reset : HostShape s .reset s.resetCore .done
  | start : HostShape s .start (s.setRunning true) .done
  | stop : HostShape s .stop (s.setRunning false) .done
  | cycle {t : State} (h : step s = .next t) : HostShape s .cycle t (replyAfter t)
  | execute {t : State} (w : InstrWord) (h : directExecute s w = .next t) : HostShape s (.execute w) t (replyAfter t)
  /-- Any register or memory access, or load of a program, that returns an error. -/
  | error (c : HostCommand) (e : Error) (hc : c.prepares = true) (hr : ∀ n, c ≠ .restore n) : HostShape s c s (.error e)
  | readReg (k : Int) (r : Reg) : HostShape s (.readReg k) s (.value (s.reg r))
  | writeReg (k : Int) (r : Reg) (v : Word) : HostShape s (.writeReg k v) (s.writeReg r v) .done
  | loadCell (a v : Word) : HostShape s (.loadWord a) s (.value v)
  | loadDraw (a v : Word) : HostShape s (.loadWord a) s.afterDraw (.value v)
  | loadRefused (a : Word) : HostShape s (.loadWord a) s.markRefused .refused
  | storeCell (a v : Word) (h : a.toNat < s.config.memSize) : HostShape s (.storeWord a v) (s.storeCell a.toNat v) .done
  | storePrint (a v : Word) : HostShape s (.storeWord a v) (s.print v) .done
  | storeRefused (a v : Word) : HostShape s (.storeWord a v) s.markRefused .refused
  | loadProgram (base : Nat) (words : List InstrWord) (h : ∀ k, k < words.length → base + 4 * k < s.config.memSize) :
      HostShape s (.loadProgram base words) (s.placeWords base words) .done
  | snapshot : HostShape s .snapshot s (.snapshot s.snapshot)
  | restore (n : Snapshot) (h : ∀ c ∈ n.memory, c.1 < s.config.memSize) : HostShape s (.restore n) (s.restored n) .done
  | restoreRefused (n : Snapshot) : HostShape s (.restore n) s.markRefused .refused
  | dump (start length : Nat) : HostShape s (.dump start length) s (.cells (s.dump start length))

theorem hostReadReg_shape {s t : State} {k : Int} {r : HostReply} (h : hostReadReg s k = .next (t, r)) :
    HostShape s (.readReg k) t r := by
  unfold hostReadReg at h
  split at h <;> cases h
  · exact .readReg k _
  · exact .error _ _ rfl (by simp)

theorem hostWriteReg_shape {s t : State} {k : Int} {v : Word} {r : HostReply}
    (h : hostWriteReg s k v = .next (t, r)) : HostShape s (.writeReg k v) t r := by
  unfold hostWriteReg at h
  split at h <;> cases h
  · exact .writeReg k _ v
  · exact .error _ _ rfl (by simp)

theorem hostLoadWord_shape {s t : State} {a : Word} {r : HostReply} (h : hostLoadWord s a = .next (t, r)) :
    HostShape s (.loadWord a) t r := by
  unfold hostLoadWord at h
  split at h
  next v u hread =>
    cases h
    rcases State.memRead_ok hread with rfl | rfl
    · exact .loadCell a v
    · exact .loadDraw a v
  next => cases h; exact .error _ _ rfl (by simp)
  next => cases h; exact .loadRefused a

theorem hostStoreWord_shape {s t : State} {a v : Word} {r : HostReply} (h : hostStoreWord s a v = .next (t, r)) :
    HostShape s (.storeWord a v) t r := by
  unfold hostStoreWord at h
  split at h
  next u hwrite =>
    cases h
    rcases State.memWrite_ok hwrite with rfl | ⟨rfl, hmem⟩
    · exact .storePrint a v
    · exact .storeCell a v hmem
  next => cases h; exact .error _ _ rfl (by simp)
  next => cases h; exact .storeRefused a v

/-- Words whose last address lies below a bound all do (R153). -/
theorem lt_of_lastWordAddr_lt {base n : Nat} {words : List InstrWord} (h : ¬ (n : Int) ≤ lastWordAddr base words) :
    ∀ k, k < words.length → base + 4 * k < n := by
  intro k hk
  unfold lastWordAddr at h
  omega

theorem hostLoadProgram_shape {s t : State} {base : Nat} {words : List InstrWord} {r : HostReply}
    (h : hostLoadProgram s base words = .next (t, r)) : HostShape s (.loadProgram base words) t r := by
  unfold hostLoadProgram at h
  split_ifs at h with halign hbound
  · cases h; exact .error _ _ rfl (by simp)
  · cases h; exact .error _ _ rfl (by simp)
  · cases h; exact .loadProgram base words (lt_of_lastWordAddr_lt hbound)

theorem hostRestore_shape {s t : State} {n : Snapshot} {r : HostReply} (h : hostRestore s n = .next (t, r)) :
    HostShape s (.restore n) t r := by
  unfold hostRestore at h
  split_ifs at h with hkeys
  · cases h; exact .restore n (by simpa using hkeys)
  · cases h; exact .restoreRefused n

theorem hostCommand_shape {c : HostCommand} {s t : State} {r : HostReply} (h : hostCommand c s = .next (t, r)) :
    HostShape s c t r := by
  cases c with
  | construct => cases h; exact .construct
  | reset => cases h; exact .reset
  | start => cases h; exact .start
  | stop => cases h; exact .stop
  | cycle =>
    obtain ⟨hstep, rfl⟩ := ofStep_eq_next.mp h
    exact .cycle hstep
  | execute w =>
    obtain ⟨hexec, rfl⟩ := ofStep_eq_next.mp h
    exact .execute w hexec
  | readReg k => exact hostReadReg_shape h
  | writeReg k v => exact hostWriteReg_shape h
  | loadWord a => exact hostLoadWord_shape h
  | storeWord a v => exact hostStoreWord_shape h
  | loadProgram base words => exact hostLoadProgram_shape h
  | snapshot => cases h; exact .snapshot
  | restore n => exact hostRestore_shape h
  | dump start length => cases h; exact .dump start length

/-! ### The updates keep the invariant -/

theorem length_appendTrace {l : List TraceEntry} (hl : l.length ≤ traceCap) (e : TraceEntry) :
    (appendTrace l e).length = min traceCap (l.length + 1) := by
  unfold appendTrace traceCap at *
  split_ifs <;> simp <;> omega

section updates

variable {s : State} (h : s.Inv)
include h

theorem State.Inv.setPc (p : Word) : (s.setPc p).Inv := { h with }
theorem State.Inv.setHiLo (x y : Word) : (s.setHiLo x y).Inv := { h with }
theorem State.Inv.setRunning (b : Bool) : (s.setRunning b).Inv := { h with }
theorem State.Inv.raiseAt (e : Error) (a : Word) : (s.raiseAt e a).Inv := { h with }
theorem State.Inv.raise (e : Error) : (s.raise e).Inv := h.raiseAt e _
theorem State.Inv.markRefused : s.markRefused.Inv := { h with }
theorem State.Inv.afterDraw : s.afterDraw.Inv := { h with }
theorem State.Inv.print (v : Word) : (s.print v).Inv := { h with }
theorem State.Inv.advancePc : s.advancePc.Inv := h.setPc _

theorem State.Inv.writeReg (r : Reg) (v : Word) : (s.writeReg r v).Inv :=
  { h with zero_register := (writeRegFile_slot_zero s.regs r v).trans h.zero_register }

/-- A store below MEM_SIZE keeps memory canonical, listed and bounded. -/
theorem State.Inv.storeCell {a : Nat} (ha : a < s.config.memSize) (v : Word) : (s.storeCell a v).Inv :=
  { h with
    mem_wf := Memory.write_wf s.mem a v h.mem_wf
    listed_written := fun c hc => (mem_markWritten s.written a c.1).mpr <| by
      rcases Memory.mem_write s.mem a v c hc with ⟨rfl, -⟩ | ⟨hmem, -⟩
      · exact .inl rfl
      · exact .inr (h.listed_written c hmem)
    written_rising := markWritten_rising s.written a h.written_rising
    written_inBounds := fun b hb => by
      rcases (mem_markWritten s.written a b).mp hb with rfl | hb
      · exact ha
      · exact h.written_inBounds b hb }

/-- A commit adds one to the counter and one entry to the trace, up to its capacity. -/
theorem State.Inv.commit (a : Word) (w : InstrWord) : (s.commit a w).Inv := by
  have hlen : (s.commit a w).trace.length = min traceCap (s.trace.length + 1) := length_appendTrace h.trace_bounded _
  have hcounts := h.trace_counts
  refine { h with trace_bounded := hlen ▸ min_le_left _ _, trace_counts := ?_ }
  rw [hlen, State.commit_instrCount]
  omega

theorem State.Inv.haltConvention (who : Caller) (i : Instr) : (haltConvention who i s).Inv := by
  obtain ⟨b, hb⟩ := haltConvention_eq_setRunning who i s
  exact hb ▸ h.setRunning b

end updates

/-- An execute stage keeps the invariant, by the shapes of the state it leaves. -/
theorem State.Inv.exec {i : Instr} {s t : State} (h : s.Inv) (hx : exec i s = .next t) : t.Inv := by
  cases exec_shape hx with
  | raised e => exact h.raise e
  | wroteReg r v => exact h.writeReg r v
  | wroteDraw r v => exact h.afterDraw.writeReg r v
  | wroteRegPc r v p => exact (h.writeReg r v).setPc p
  | wroteHiLo x y => exact h.setHiLo x y
  | stored a v ha => exact h.storeCell ha v
  | printed v => exact h.print v
  | went p => exact h.setPc p
  | stayed => exact h

/-- Settles O51: each shape of a cycle is made of updates that keep the invariant. -/
theorem stepKeepsInvariant : Obligations.StepKeepsInvariant := by
  intro s t h hstep
  obtain ⟨-, hshape⟩ := step_shape hstep
  cases hshape with
  | fetchRaised e => exact h.raiseAt e _
  | refused => exact h.markRefused
  | decodeRaised w d => exact h.advancePc.raise _
  | execRaised w i e => exact h.advancePc.raise e
  | completed w i u hf hd hx => exact ((h.advancePc.exec hx).commit _ w).haltConvention _ i

theorem State.Inv.directExecute {s t : State} {w : InstrWord} (h : s.Inv) (hd : directExecute s w = .next t) : t.Inv := by
  obtain ⟨-, -, hshape⟩ := directExecute_shape hd
  cases hshape with
  | refused => exact h.markRefused
  | decodeRaised d => exact h.raise _
  | execRaised i e => exact h.raise e
  | completed i u _ hx => exact (h.exec hx).commit _ w

/-! ### The host's commands keep the invariant -/

theorem State.construct_inv {c : Config} (h : c.wellFormed = true) : (State.construct c).Inv where
  config_wellFormed := h
  zero_register := rfl
  mem_wf := rfl
  listed_written := by simp [State.construct]
  written_rising := .nil
  written_inBounds := by simp [State.construct]
  trace_bounded := Nat.zero_le _
  trace_counts := .inl rfl

theorem State.Inv.constructAgain {s : State} (h : s.Inv) : s.constructAgain.Inv :=
  { State.construct_inv h.config_wellFormed with }

theorem State.Inv.resetCore {s : State} (h : s.Inv) : s.resetCore.Inv :=
  { h with
    zero_register := rfl
    trace_bounded := Nat.succ_le_of_lt (by decide : 0 < traceCap)
    trace_counts := .inr rfl }

theorem State.Inv.placeWords : ∀ {s : State} {base : Nat} {words : List InstrWord}, s.Inv →
    (∀ k, k < words.length → base + 4 * k < s.config.memSize) → (s.placeWords base words).Inv := by
  intro s base words
  induction words generalizing s base with
  | nil => exact fun h _ => h
  | cons w rest ih =>
    intro h hbound
    refine ih (h.storeCell (hbound 0 (Nat.zero_lt_succ _)) _) fun k hk => ?_
    have := hbound (k + 1) (Nat.succ_lt_succ hk)
    show base + 4 + 4 * k < s.config.memSize
    omega

theorem State.Inv.restored {s : State} {n : Snapshot} (h : s.Inv) (hkeys : ∀ c ∈ n.memory, c.1 < s.config.memSize) :
    (s.restored n).Inv := by
  obtain ⟨hwf, hlisted, hrising, hbounds⟩ :=
    foldl_write_wf n.memory [] [] s.config.memSize rfl (by simp) .nil (by simp) hkeys
  exact { h with
    zero_register := Vector.getElem_set_self _
    mem_wf := hwf
    listed_written := hlisted
    written_rising := hrising
    written_inBounds := hbounds }

/-- Settles O52: each shape of a host command. -/
theorem hostCommandsKeepInvariant : Obligations.HostCommandsKeepInvariant := by
  intro c s t r h hc
  cases hostCommand_shape hc with
  | construct => exact h.constructAgain
  | reset => exact h.resetCore
  | start => exact h.setRunning true
  | stop => exact h.setRunning false
  | cycle hstep => exact stepKeepsInvariant s t h hstep
  | execute w hexec => exact h.directExecute hexec
  | writeReg k r v => exact h.writeReg r v
  | loadDraw => exact h.afterDraw
  | storeCell a v hmem => exact h.storeCell hmem v
  | storePrint a v => exact h.print v
  | loadProgram base words hbound => exact h.placeWords hbound
  | restore n hkeys => exact h.restored hkeys
  | loadRefused | storeRefused | restoreRefused => exact h.markRefused
  | error | readReg | loadCell | snapshot | dump => exact h

/-- Settles O53: the constructed core, and reset as an update that keeps the invariant. -/
theorem constructionAndResetMeetInvariant : Obligations.ConstructionAndResetMeetInvariant :=
  ⟨fun _ h => ⟨State.construct_inv h, (State.construct_inv h).resetCore⟩, (State.construct_inv (by decide)).resetCore⟩

/-! ### Reset, faults and refusals (70_reset_and_hazards.md R147, 10_state.md R25, R31) -/

theorem State.resetCore_reg (s : State) (r : Reg) : s.resetCore.reg r = 0 := by
  simp [State.reg, State.resetCore]

/-- Settles O54: the fields of a reset core. -/
theorem resetCommandEffect : Obligations.ResetCommandEffect := fun s =>
  ⟨s.resetCore, rfl, s.resetCore_reg, rfl, rfl, rfl, rfl, rfl, rfl, rfl, rfl, ⟨fun _ => rfl, rfl⟩, ⟨rfl, rfl⟩, rfl, rfl⟩

/-- A step and a direct execute start where neither a fault nor a refusal is recorded. -/
theorem not_stopped_of_step {s t : State} (h : step s = .next t) : ¬ (s.fault ≠ none ∨ s.refused = true) := by
  obtain ⟨-, hfault, href⟩ := s.enabled_iff.mp (step_shape h).1
  simp [hfault, href]

theorem not_stopped_of_directExecute {s t : State} {w : InstrWord} (h : directExecute s w = .next t) :
    ¬ (s.fault ≠ none ∨ s.refused = true) := by
  obtain ⟨hfault, href, -⟩ := directExecute_shape h
  simp [hfault, href]

/-- Settles O55: a cycle and a direct execute do not run, and each other shape of a host command keeps record and mark. -/
theorem onlyResetClearsFaultAndRefusal : Obligations.OnlyResetClearsFaultAndRefusal := by
  refine fun s => ⟨fun hstop => ⟨fun t h => not_stopped_of_step h hstop,
    fun w t h => not_stopped_of_directExecute h hstop⟩, fun c t r hc hreset hconstruct => ?_⟩
  cases hostCommand_shape hc with
  | construct => exact absurd rfl hconstruct
  | reset => exact absurd rfl hreset
  | cycle h =>
    exact ⟨fun hf => absurd (.inl hf) (not_stopped_of_step h), fun hr => absurd (.inr hr) (not_stopped_of_step h)⟩
  | execute w h =>
    exact ⟨fun hf => absurd (.inl hf) (not_stopped_of_directExecute h),
      fun hr => absurd (.inr hr) (not_stopped_of_directExecute h)⟩
  | loadProgram base words =>
    obtain ⟨-, -, -, hcontrol, -⟩ := State.placeWords_frame words s base
    exact ⟨fun _ => hcontrol.fault, fun hr => hcontrol.refused.trans hr⟩
  | loadRefused | storeRefused | restoreRefused => exact ⟨fun _ => rfl, fun _ => rfl⟩
  | _ => exact ⟨fun _ => rfl, id⟩

/-! ### The host's accesses (70_reset_and_hazards.md R151 to R153) -/

theorem hostRegister?_val (r : Reg) : hostRegister? (r.val : Int) = some r := by
  rw [hostRegister?, dif_pos (by omega)]
  rfl

theorem hostRegister?_eq_none {k : Int} (h : k < 0 ∨ 31 < k) : hostRegister? k = none := by
  rw [hostRegister?, dif_neg (by omega)]

/-- Settles O56: the register of an index, and the register write. -/
theorem hostRegisterAccess : Obligations.HostRegisterAccess := by
  refine fun s k v => ⟨fun r hk => ?_, fun hk => ?_⟩
  · subst hk
    have hr := hostRegister?_val r
    exact ⟨by simp only [hostCommand, hostReadReg, hr], s.writeReg r v, hostWriteReg_eq s hr v,
      fun i => s.writeReg_reg r i v, rfl, ⟨rfl, rfl⟩, ⟨rfl, rfl, rfl, rfl, rfl, rfl, rfl⟩, ⟨fun _ => rfl, rfl⟩, ⟨rfl, rfl⟩⟩
  · have hnone := hostRegister?_eq_none hk
    exact ⟨by simp only [hostCommand, hostReadReg, hnone], by simp only [hostCommand, hostWriteReg, hnone]⟩

section hostAccess

variable {s : State} {a v : Word}

theorem hostLoadWord_of_ok {u : State} (h : s.memRead a = .ok (v, u)) :
    hostCommand (.loadWord a) s = .next (u, .value v) := by
  simp only [hostCommand, hostLoadWord, h]

theorem hostLoadWord_of_raised {e : Error} (h : s.memRead a = .raised e) :
    hostCommand (.loadWord a) s = .next (s, .error e) := by
  simp only [hostCommand, hostLoadWord, h]

theorem hostLoadWord_of_refused {r : Refusal} (h : s.memRead a = .refused r) :
    hostCommand (.loadWord a) s = .next (s.markRefused, .refused) := by
  simp only [hostCommand, hostLoadWord, h]

theorem hostStoreWord_of_ok {u : State} (h : s.memWrite a v = .ok u) :
    hostCommand (.storeWord a v) s = .next (u, .done) := by
  simp only [hostCommand, hostStoreWord, h]

theorem hostStoreWord_of_raised {e : Error} (h : s.memWrite a v = .raised e) :
    hostCommand (.storeWord a v) s = .next (s, .error e) := by
  simp only [hostCommand, hostStoreWord, h]

theorem hostStoreWord_of_refused {r : Refusal} (h : s.memWrite a v = .refused r) :
    hostCommand (.storeWord a v) s = .next (s.markRefused, .refused) := by
  simp only [hostCommand, hostStoreWord, h]

end hostAccess

/-- Settles O57: the controller's answers, handed to the host. -/
theorem hostMemoryAccess : Obligations.HostMemoryAccess := by
  refine fun s a v => ⟨fun h => ⟨hostLoadWord_of_ok (State.memRead_of_storage h), ?_⟩,
    fun h => ⟨hostLoadWord_of_raised (State.memRead_of_misaligned h), hostStoreWord_of_raised (State.memWrite_of_misaligned h)⟩,
    fun halign hmmio hmem => ?_, fun h => ⟨?_, ?_⟩⟩
  · have hread := State.memRead_of_storage (h.congr (t := s.storeCell a.toNat v) rfl)
    rw [State.storeCell_cell_same] at hread
    exact ⟨_, hostStoreWord_of_ok (State.memWrite_of_storage h), hostLoadWord_of_ok hread,
      fun b hb => s.storeCell_cell_of_ne hb v, s.storeCell_frame _ v⟩
  · have h : DataOutOfBounds s a := ⟨halign, hmmio, hmem⟩
    exact ⟨hostLoadWord_of_raised (State.memRead_of_outOfBounds h), hostStoreWord_of_raised (State.memWrite_of_outOfBounds h)⟩
  · split_ifs with hp
    · exact hostLoadWord_of_ok (State.memRead_of_inputPort h hp)
    · exact hostLoadWord_of_refused (State.memRead_of_mmio h hp)
  · split_ifs with hp
    · exact hostStoreWord_of_ok (State.memWrite_of_outputPort h hp)
    · exact hostStoreWord_of_refused (State.memWrite_of_mmio h hp)

/-- For at least one word the loader's integer bound is the natural number of the last word's address. -/
theorem memSize_le_lastWordAddr_iff {n base : Nat} {words : List InstrWord} (h : words ≠ []) :
    (n : Int) ≤ lastWordAddr base words ↔ n ≤ base + 4 * (words.length - 1) := by
  have hpos := List.length_pos_of_ne_nil h
  unfold lastWordAddr
  omega

/-- Settles O58: the loader's checks in their order, and the cells and the frame of the placed words. -/
theorem loadProgramPlacesWords : Obligations.LoadProgramPlacesWords := by
  intro s base words hne
  have hiff := memSize_le_lastWordAddr_iff (n := s.config.memSize) (base := base) hne
  simp only [hostCommand, hostLoadProgram, hiff]
  split_ifs with halign hbound
  · rfl
  · exact ⟨_, rfl⟩
  · obtain ⟨hcells, hother⟩ := State.placeWords_cell words s base
    exact ⟨_, rfl, hcells, hother, State.placeWords_frame words s base⟩

/-! ### Snapshots (70_reset_and_hazards.md R154) -/

section restored

variable {s : State} (h : s.Inv) (u : State)
include h

/-- Restoring a snapshot lists the same cells as written: they were in rising order. -/
theorem State.restored_snapshot_written : (u.restored s.snapshot).written = s.written :=
  foldl_markWritten_rising s.cell s.written [] (by simpa using h.written_rising)

/-- Restoring a snapshot gives every cell back: one that was not written reads as zero in both. -/
theorem State.restored_snapshot_cell (a : Nat) : (u.restored s.snapshot).cell a = s.cell a := by
  have hread : (u.restored s.snapshot).cell a = if a ∈ s.written then s.cell a else 0 :=
    Memory.read_foldl_write s.cell s.written [] a
  rw [hread]
  split_ifs with ha
  · rfl
  · exact (Memory.read_of_not_listed s.mem a fun c hc hca => ha (hca ▸ h.listed_written c hc)).symm

omit h in
/-- Restoring a snapshot gives every register back, `$0` being zero in both. -/
theorem State.restored_snapshot_reg (s u : State) (r : Reg) : (u.restored s.snapshot).reg r = s.reg r := by
  by_cases hr : r = 0
  · rw [hr, State.reg_zero, State.reg_zero]
  · rw [State.restored_reg _ _ _ hr]
    exact Vector.getElem_ofFn _

theorem State.restored_snapshot_snapshot : (u.restored s.snapshot).snapshot = s.snapshot := by
  have hregs : (u.restored s.snapshot).reg = s.reg := funext (State.restored_snapshot_reg s u)
  have hcells : (u.restored s.snapshot).cell = s.cell := funext (State.restored_snapshot_cell h u)
  have hmem : (u.restored s.snapshot).cellsAt (u.restored s.snapshot).written = s.cellsAt s.written := by
    rw [State.restored_snapshot_written h u, State.cellsAt, State.cellsAt, hcells]
  rw [State.snapshot, hregs, hmem]
  rfl

/-- A snapshot's keys are the written addresses, so a core of the same memory size accepts them. -/
theorem hostRestore_snapshot (hsize : u.config.memSize = s.config.memSize) :
    hostCommand (.restore s.snapshot) u = .next (u.restored s.snapshot, .done) := by
  refine if_pos (List.all_eq_true.mpr fun c hc => ?_)
  obtain ⟨a, ha, rfl⟩ := List.mem_map.mp hc
  exact decide_eq_true (hsize ▸ h.written_inBounds a ha)

end restored

/-- From Idle, a command leads to Running exactly where it is `start` or a completed restore of a running snapshot (log 35). -/
theorem hostCommand_leaves_idle {c : HostCommand} {s t : State} {r : HostReply} (hc : hostCommand c s = .next (t, r))
    (hidle : s.running = false) : t.running = true ↔ c = .start ∨ ∃ n, c = .restore n ∧ n.running = true ∧ r = .done := by
  have hshape := hostCommand_shape hc
  clear hc
  cases hshape with
  | start => simp
  | restore n => simp
  | restoreRefused => simp [hidle]
  | cycle h =>
    obtain ⟨hrun, -, -⟩ := s.enabled_iff.mp (step_shape h).1
    exact absurd (hidle.symm.trans hrun) (by decide)
  | execute w h => simp [directExecute_running h, hidle]
  | loadProgram base words =>
    obtain ⟨-, -, -, hcontrol, -⟩ := State.placeWords_frame words s base
    simp [hcontrol.running, hidle]
  | error c e hprepares hrestore =>
    have hstart : c ≠ .start := by rintro rfl; cases hprepares
    simp [hidle, hstart, hrestore]
  | construct => simp [State.constructAgain, State.construct]
  | reset => simp [State.resetCore]
  | _ => simp [hidle]

/-- Settles O59: what the snapshot's components become again, and the commands that leave Idle. -/
theorem restoreOfSnapshot : Obligations.RestoreOfSnapshot := by
  refine ⟨fun s u h hsize => ?_, fun c s t r hc hidle => hostCommand_leaves_idle hc hidle⟩
  exact ⟨u.restored s.snapshot, hostRestore_snapshot h u hsize, State.restored_snapshot_snapshot h u,
    State.restored_snapshot_cell h u, State.restored_snapshot_reg s u, u.restored_fault _, u.restored_refused _,
    u.restored_instrCount _, u.restored_trace _, ⟨u.restored_outLog _, u.restored_draws _⟩, u.restored_config _⟩

end Sys2Proof.Machine
